-- ==== Sys2Proof/Word.lean ====
section
/-! DEFINITION. The values the block computes with: memory cells, input tokens, operand modes and fail kinds. -/

namespace Sys2Proof

/-- A memory cell (00_scope.md R9): a signed integer of no fixed width, or the non-numeric value that a
malformed input token leaves in memory. -/
inductive Cell where
  | val (v : Int)
  | poison
  deriving DecidableEq, Repr

/-- The two addressing modes of a read operand (30_encoding.md R76): mode digit 0 is `position`, digit 1 is
`immediate`. -/
inductive Mode where
  | position
  | immediate
  deriving DecidableEq, Repr

/-- The five fail kinds (60_exceptions.md R160). -/
inductive FailKind where
  /-- Code 1: the decoder finds no instruction for the word at `pc`. -/
  | unrecognizedOpcode
  /-- Code 2: a mode digit outside 0 and 1 for a read operand. -/
  | invalidOperandMode
  /-- Code 3: the operand resolver met a `poison` cell. -/
  | memoryCorrupted
  /-- Code 4: an address outside memory. -/
  | outOfBounds
  /-- Code 5: a sum or product outside a finite `WORD_BITS` range. -/
  | arithmeticOverflow
  deriving DecidableEq, Repr

/-- An item of the input queue, exactly as the host supplied it (41_io.md R115 "strings/tokens convertible to
integers"). DESIGN CHOICE, safe (log entry 4): a token is a string of any characters. -/
abbrev Token := String

end Sys2Proof
end

