-- ==== Sys2Proof/Config.lean ====
section
/-! DEFINITION. The parameters that an implementation fixes (00_scope.md R6; log entry 16), and the model's two free
values: the conversion of tokens and what the host does in an unending run. -/

namespace Sys2Proof

/-- The open parameters of 00_scope.md R6 (`MEM_SIZE` is the size of the loaded memory, see `Machine.Memory`) and the one
of log entry 16.
DESIGN CHOICE, safe (log entry 2): they are plain data held in State, so that a statement about every state is a
statement about every choice of them. -/
structure Config where
  /-- `WORD_BITS`: `none` for unbounded integers, `some W` for a signed two's-complement datapath of W bits. -/
  wordBits : Option Nat
  /-- `INPUT_DEPTH`: `none` for an unbounded input queue, `some d` for one of d tokens. -/
  inputDepth : Option Nat
  /-- Known values of `parseToken`: each token listed here is converted as its entry says, whatever
  `Config.openParse` is. -/
  parses : List (Token × Option Int)
  /-- Whether an Input at address 0 waits from the end of a reset on, as the condition of state of 10_state.md R25 and R26
  says, or only from the engine's first turn after it, as 70_reset_and_hazards.md R191 lists ("no Input has started").
  The spec settles it nowhere: the model's own parameter. DESIGN CHOICE, safe (log entry 16). -/
  waitsFromReset : Bool
  deriving DecidableEq, Repr

/-- FREE VALUE (log entry 3): the conversion of an input token to an integer, which 92_eei_decisions.md D11 leaves
open. Nothing is known of it. -/
opaque Config.openParse : Token → Option Int

/-- Whose turn it is, and what the host does at its own turns (10_state.md R31; 41_io.md R121). -/
inductive Machine.Turn where
  /-- The engine makes its step. -/
  | engine
  /-- The host pushes a token into the input queue. -/
  | push (tok : Token)
  /-- The host resets the block with a new program image. -/
  | reset (image : List Int)
  deriving DecidableEq, Repr

/-- FREE VALUE (log entry 5): the turns of period n of an unending run, after which, in every period, the engine has
one more. Nothing is known of them, so that the host may act in any order and forever, and the engine is the one agent
that is sure of its turns (10_state.md R31). -/
opaque Config.laterTurns : Nat → List Machine.Turn

/-- The defaults of 00_scope.md R6: unbounded integers, unbounded queue. DESIGN CHOICE, safe (log entries 3 and 16): no
token's conversion is known, and the wait is 10_state.md R25's in every state. -/
def Config.default : Config := { wordBits := none, inputDepth := none, parses := [], waitsFromReset := true }

end Sys2Proof
end

