-- ==== Sys2Proof/Syntax.lean ====
section
/-! DEFINITION. The instruction set: one constructor per row of the opcode table (00_scope.md R4). -/

namespace Sys2Proof

/-- The nine instructions, with the mode digits of their instruction word (30_encoding.md R73, R80). `a` and `b` are
the modes of the read operands; `wdigit` is the mode digit of the write operand, which the instruction carries and
ignores (R76). The operand values are not part of the instruction: they are the cells after the instruction word,
which the instruction reads when it runs (R77, R78; log entry 11). -/
inductive Instr where
  /-- ADD, opcode 1 (R100). -/
  | add (a b : Mode) (wdigit : Nat)
  /-- MUL, opcode 2 (R101). -/
  | mul (a b : Mode) (wdigit : Nat)
  /-- IN, opcode 3 (R110). -/
  | input (wdigit : Nat)
  /-- OUT, opcode 4 (R111). -/
  | output (a : Mode)
  /-- JT, opcode 5 (R130). -/
  | jumpIfTrue (a b : Mode)
  /-- JF, opcode 6 (R131). -/
  | jumpIfFalse (a b : Mode)
  /-- LT, opcode 7 (R140). -/
  | lessThan (a b : Mode) (wdigit : Nat)
  /-- EQ, opcode 8 (R141). -/
  | equals (a b : Mode) (wdigit : Nat)
  /-- HALT, opcode 99 (R150). -/
  | halt
  deriving DecidableEq, Repr

end Sys2Proof
end

