-- ==== Sys2Proof/WellFormed.lean ====
section
/-! DEFINITION. Which terms of `Instr` some instruction word encodes. -/

namespace Sys2Proof

/-- A write operand's mode digit is one decimal digit, any of 0 to 9 (30_encoding.md R71, R76). -/
def writeDigitOk (d : Nat) : Bool := decide (d < 10)

/-- An instruction is well formed when its write operand's mode digit is a digit. The read operands' modes are
well formed by their type. -/
def Instr.wellFormed : Instr → Bool
  | .add _ _ d => writeDigitOk d
  | .mul _ _ d => writeDigitOk d
  | .input d => writeDigitOk d
  | .output _ => true
  | .jumpIfTrue _ _ => true
  | .jumpIfFalse _ _ => true
  | .lessThan _ _ d => writeDigitOk d
  | .equals _ _ d => writeDigitOk d
  | .halt => true

end Sys2Proof
end

