-- ==== Sys2Proof/Decode.lean ====
section
/-! DEFINITION. The instruction decoder, total on every cell (30_encoding.md R80, R86), the encoder (R87), the spec's
assembly notation (R89) and the host's reading of an opcode-table word. -/

namespace Sys2Proof

/-- The k-th decimal digit of `w`, digit 0 the units digit (00_scope.md R8). -/
def digit (w k : Nat) : Nat := w / 10 ^ k % 10

/-- The opcode field, the word's last two decimal digits (30_encoding.md R71, R73). -/
def opcodeField (w : Nat) : Nat := w % 100

/-- The mode a read operand's digit stands for; none for 2 to 9 (30_encoding.md R76, R84). -/
def modeOfDigit (d : Nat) : Option Mode :=
  if d = 0 then some .position else if d = 1 then some .immediate else none

/-- The digit of a mode (30_encoding.md R76). -/
def modeDigit : Mode → Nat
  | .position => 0
  | .immediate => 1

/-- What the decoder makes of a cell: an instruction with its mode digits, or a failure. -/
inductive Decoded where
  | instr (i : Instr)
  | fail (k : FailKind)
  deriving DecidableEq, Repr

/-- Instructions whose operand 1 alone is read: its mode digit is digit 2 (30_encoding.md R75, R80). -/
def decodeOneRead (w : Nat) (build : Mode → Instr) : Decoded :=
  match modeOfDigit (digit w 2) with
  | some a => .instr (build a)
  | none => .fail .invalidOperandMode

/-- Instructions whose operands 1 and 2 are read: mode digits 2 and 3, checked in that order
(30_encoding.md R75, R80). -/
def decodeTwoReads (w : Nat) (build : Mode → Mode → Instr) : Decoded :=
  match modeOfDigit (digit w 2) with
  | some a =>
    match modeOfDigit (digit w 3) with
    | some b => .instr (build a b)
    | none => .fail .invalidOperandMode
  | none => .fail .invalidOperandMode

/-- The decoder on a non-negative instruction word (30_encoding.md R73, R80). The write operand's digit is never
checked (R76); digits above the last mode digit are never looked at (R75, R85). -/
def decodeWord (w : Nat) : Decoded :=
  match opcodeField w with
  | 1 => decodeTwoReads w fun a b => .add a b (digit w 4)
  | 2 => decodeTwoReads w fun a b => .mul a b (digit w 4)
  | 3 => .instr (.input (digit w 2))
  | 4 => decodeOneRead w .output
  | 5 => decodeTwoReads w .jumpIfTrue
  | 6 => decodeTwoReads w .jumpIfFalse
  | 7 => decodeTwoReads w fun a b => .lessThan a b (digit w 4)
  | 8 => decodeTwoReads w fun a b => .equals a b (digit w 4)
  | 99 => .instr .halt
  | _ => .fail .unrecognizedOpcode

/-- The decoder on any cell (30_encoding.md R80): a `poison` cell (D4) and a negative word (D3) match no
instruction. -/
def decode : Cell → Decoded
  | .poison => .fail .unrecognizedOpcode
  | .val w => if w < 0 then .fail .unrecognizedOpcode else decodeWord w.toNat

/-- The opcode of an instruction (30_encoding.md R73). -/
def Instr.opcode : Instr → Nat
  | .add _ _ _ => 1
  | .mul _ _ _ => 2
  | .input _ => 3
  | .output _ => 4
  | .jumpIfTrue _ _ => 5
  | .jumpIfFalse _ _ => 6
  | .lessThan _ _ _ => 7
  | .equals _ _ _ => 8
  | .halt => 99

/-- `oplen`: how many cells an instruction takes, its word included (30_encoding.md R73). -/
def Instr.oplen : Instr → Nat
  | .add _ _ _ => 4
  | .mul _ _ _ => 4
  | .input _ => 2
  | .output _ => 2
  | .jumpIfTrue _ _ => 3
  | .jumpIfFalse _ _ => 3
  | .lessThan _ _ _ => 4
  | .equals _ _ _ => 4
  | .halt => 1

/-- The modes of the read operands A, B of an instruction; they are its first operands (30_encoding.md R73). -/
def Instr.readModes : Instr → List Mode
  | .add a b _ => [a, b]
  | .mul a b _ => [a, b]
  | .input _ => []
  | .output a => [a]
  | .jumpIfTrue a b => [a, b]
  | .jumpIfFalse a b => [a, b]
  | .lessThan a b _ => [a, b]
  | .equals a b _ => [a, b]
  | .halt => []

/-- The word of opcode `op` with mode digits `m1`, `m2`, `m3`, absent digits 0 (30_encoding.md R87). -/
def wordOf (op m1 m2 m3 : Nat) : Nat := op + 100 * m1 + 1000 * m2 + 10000 * m3

/-- The encoder: the canonical instruction word (30_encoding.md R87). -/
def encode : Instr → Nat
  | .add a b d => wordOf 1 (modeDigit a) (modeDigit b) d
  | .mul a b d => wordOf 2 (modeDigit a) (modeDigit b) d
  | .input d => wordOf 3 d 0 0
  | .output a => wordOf 4 (modeDigit a) 0 0
  | .jumpIfTrue a b => wordOf 5 (modeDigit a) (modeDigit b) 0
  | .jumpIfFalse a b => wordOf 6 (modeDigit a) (modeDigit b) 0
  | .lessThan a b d => wordOf 7 (modeDigit a) (modeDigit b) d
  | .equals a b d => wordOf 8 (modeDigit a) (modeDigit b) d
  | .halt => wordOf 99 0 0 0

/-- A read operand in the spec's assembly notation (30_encoding.md R89): `pos n` is `[n]`, `imm n` is `#n`. -/
inductive ReadArg where
  | pos (n : Int)
  | imm (n : Int)
  deriving DecidableEq, Repr

/-- The mode a read operand is assembled with. -/
def ReadArg.mode : ReadArg → Mode
  | .pos _ => .position
  | .imm _ => .immediate

/-- The operand cell a read operand is assembled to. -/
def ReadArg.cell : ReadArg → Int
  | .pos n => n
  | .imm n => n

/-- A line of the spec's assembly notation (30_encoding.md R89); a write operand is a bare address. -/
inductive AsmLine where
  | add (a b : ReadArg) (c : Int)
  | mul (a b : ReadArg) (c : Int)
  | input (a : Int)
  | output (a : ReadArg)
  | jumpIfTrue (a b : ReadArg)
  | jumpIfFalse (a b : ReadArg)
  | lessThan (a b : ReadArg) (c : Int)
  | equals (a b : ReadArg) (c : Int)
  | halt
  /-- `.word n`: a raw integer, no instruction. -/
  | word (n : Int)
  deriving DecidableEq, Repr

/-- The instruction a line stands for, none for `.word n`. A write operand's mode digit is assembled as 0. -/
def AsmLine.instr? : AsmLine → Option Instr
  | .add a b _ => some (.add a.mode b.mode 0)
  | .mul a b _ => some (.mul a.mode b.mode 0)
  | .input _ => some (.input 0)
  | .output a => some (.output a.mode)
  | .jumpIfTrue a b => some (.jumpIfTrue a.mode b.mode)
  | .jumpIfFalse a b => some (.jumpIfFalse a.mode b.mode)
  | .lessThan a b _ => some (.lessThan a.mode b.mode 0)
  | .equals a b _ => some (.equals a.mode b.mode 0)
  | .halt => some .halt
  | .word _ => none

/-- The operand cells of a line, in the order A, B, C (30_encoding.md R71). -/
def AsmLine.operandCells : AsmLine → List Int
  | .add a b c => [a.cell, b.cell, c]
  | .mul a b c => [a.cell, b.cell, c]
  | .input a => [a]
  | .output a => [a.cell]
  | .jumpIfTrue a b => [a.cell, b.cell]
  | .jumpIfFalse a b => [a.cell, b.cell]
  | .lessThan a b c => [a.cell, b.cell, c]
  | .equals a b c => [a.cell, b.cell, c]
  | .halt => []
  | .word _ => []

/-- The cells a line is assembled to: the instruction word, then the operand cells (30_encoding.md R71, R89). -/
def AsmLine.assemble (l : AsmLine) : List Int :=
  match l, l.instr? with
  | .word n, _ => [n]
  | _, some i => (encode i : Int) :: l.operandCells
  | _, none => []

/-- The instruction the decoder reads from an opcode-table word. DESIGN CHOICE, safe (log entry 10): the table's
words are decimal integers, one whole cell each, so `w` is the value of the instruction's first cell however many
bits the table counts, and the operand cells (zeros) do not take part in decoding. -/
def decodeTableWord (_nbits w : Nat) : Option Instr :=
  match decode (.val (w : Int)) with
  | .instr i => some i
  | .fail _ => none

end Sys2Proof
end

