-- ==== Sys2Proof/Machine/State.lean ====
section
/-! DEFINITION. The state of one block: everything 10_state.md R20, 41_io.md R112 and R116 and 00_scope.md R6 give it,
and the host's turns; what a step can refuse; the state at power-on. -/

namespace Sys2Proof.Machine

/-- Engine status (10_state.md R25). -/
inductive Status where
  | running
  | halted
  | failed (kind : FailKind)
  deriving DecidableEq, Repr

/-- Memory (10_state.md R27): `size` is MEM_SIZE, and `cells` lists, by strictly rising address, every cell of
addresses 0 to `size - 1` that does not hold `Memory.blank`. DESIGN CHOICE, safe (log entry 1). -/
structure Memory where
  size : Nat
  cells : List (Nat × Cell)
  deriving DecidableEq, Repr

/-- What a cell inside memory that the list does not name holds. The list stands for the loaded image, which gives
every cell a value (70_reset_and_hazards.md R191), so nothing of the machine depends on this value (log entry 1). -/
def Memory.blank : Cell := .val 0

/-- What comes after the turns that State lists (log entry 5). -/
inductive Future where
  /-- The host does nothing more: every further turn is the engine's. -/
  | quiet
  /-- The run goes on with the turns of `Config.laterTurns`, the next period being `period`. -/
  | free (period : Nat)
  deriving DecidableEq, Repr

/-- The state of the block, its input queue and its output list, with the machine's parameters and the host's
turns. -/
structure State where
  /-- `Memory` (R20). -/
  mem : Memory
  /-- `pc` (R23): any integer. -/
  pc : Int
  /-- `status` (R25). -/
  status : Status
  /-- `InQ` (R116), oldest token first. -/
  inQ : List Token
  /-- `Out` (R112), in execution order. -/
  out : List Int
  /-- The parameters of the machine, which no step changes. DESIGN CHOICE, safe (log entries 2 and 16). -/
  cfg : Config
  /-- The turns to come, the model's own field. DESIGN CHOICE, safe (log entry 5). -/
  schedule : List Turn
  /-- What comes after the turns of `schedule`, the model's own field. DESIGN CHOICE, safe (log entry 5). -/
  future : Future
  /-- The engine has had no turn since the last reset (70_reset_and_hazards.md R191, "no Input has started"). The model's
  own field. DESIGN CHOICE, safe (log entry 16). -/
  fresh : Bool
  deriving DecidableEq, Repr

/-- No step of this machine faults: the spec turns every error into the state `Failed(kind)`
(60_exceptions.md R161), which is a next state (log entry 15). -/
inductive Fault where
  deriving DecidableEq, Repr

/-- Why a step has no meaning. -/
inductive Refusal where
  /-- Raised by `exec` for an instruction not modelled yet (no arm raises it). Safe: the machine goes on where the
  model stops. -/
  | notModelled (mnemonic : String)
  /-- Raised by a reset turn whose image holds an integer outside a finite WORD_BITS range: such a host "has no
  defined run" (70_reset_and_hazards.md R192, treatment `refuse` of I3). Safe: the spec gives no effect. -/
  | imageOutOfRange
  deriving DecidableEq, Repr

/-- The outcome of a step or of an instruction. -/
abbrev Outcome := Host.Outcome State Fault Refusal

/-- The block at power-on (70_reset_and_hazards.md R190, R191): running at address 0 over the empty program, with an
empty queue and no output. No program has been handed over yet; log entry 9 says how one comes to run. -/
def State.reset : State :=
  { mem := { size := 0, cells := [] }
    pc := 0
    status := .running
    inQ := []
    out := []
    cfg := Config.default
    schedule := []
    future := .quiet
    fresh := true }

end Sys2Proof.Machine
end

