-- ==== Sys2Proof/Machine/Ops.lean ====
section
/-! DEFINITION. The named operations: reading and writing one cell, the range of a value, what a failure does, the
advance of the pc, the input queue, the output port and the host's actions. -/

namespace Sys2Proof.Machine

/-! ### Memory -/

/-- `InBounds(a)` (00_scope.md R10): 0 <= a < MEM_SIZE. -/
def Memory.inBounds (m : Memory) (a : Int) : Bool := decide (0 ≤ a ∧ a < m.size)

/-- The cell at address `a`, `MemRead(a, 1)` (00_scope.md R10). -/
def Memory.get (m : Memory) (a : Nat) : Cell := (m.cells.lookup a).getD Memory.blank

/-- The entry `e` put at its place in a list of entries by rising address. -/
def Memory.place (e : Nat × Cell) : List (Nat × Cell) → List (Nat × Cell)
  | [] => [e]
  | x :: xs => if e.1 < x.1 then e :: x :: xs else x :: Memory.place e xs

/-- `MemWrite(a, 1, c)` (00_scope.md R10): the cell at `a` becomes `c`, the canonical form is kept. -/
def Memory.set (m : Memory) (a : Nat) (c : Cell) : Memory :=
  let others := m.cells.filter fun e => decide (e.1 ≠ a)
  { m with cells := if c = Memory.blank then others else Memory.place (a, c) others }

/-- The entries of the integers `vs`, the first of them at address `a`. -/
def Memory.entriesFrom (a : Nat) : List Int → List (Nat × Cell)
  | [] => []
  | v :: vs =>
    if Cell.val v = Memory.blank then Memory.entriesFrom (a + 1) vs
    else (a, .val v) :: Memory.entriesFrom (a + 1) vs

/-- The memory of a loaded image: MEM_SIZE is its length and cell a holds its a-th integer
(20_memory.md R51, 70_reset_and_hazards.md R191, R192). -/
def Memory.load (image : List Int) : Memory :=
  { size := image.length, cells := Memory.entriesFrom 0 image }

/-- The canonical form: addresses strictly rise, each is inside memory, and no entry is blank. -/
def Memory.wf (m : Memory) : Bool :=
  decide (m.cells.Pairwise fun x y => x.1 < y.1) &&
    m.cells.all fun e => decide (e.1 < m.size) && decide (e.2 ≠ Memory.blank)

/-! ### The range of a value and the conversion of a token -/

/-- `InRange_W(v)` for WORD_BITS = W, and true when WORD_BITS = none (10_state.md R22). -/
def inRange (cfg : Config) (v : Int) : Bool :=
  match cfg.wordBits with
  | none => true
  | some w => decide (-((2 ^ (w - 1) : Nat) : Int) ≤ v ∧ v ≤ ((2 ^ (w - 1) : Nat) : Int) - 1)

/-- `parseToken` (00_scope.md R6): the listed value when there is one, the free value otherwise (log entry 3). -/
def parseToken (cfg : Config) (tok : Token) : Option Int :=
  match cfg.parses.lookup tok with
  | some r => r
  | none => Config.openParse tok

/-- The cell an Input stores for a token (41_io.md R110, R120): its integer when it converts to one in range, POISON
otherwise. -/
def tokenCell (cfg : Config) (tok : Token) : Cell :=
  match parseToken cfg tok with
  | some v => if inRange cfg v then .val v else .poison
  | none => .poison

/-! ### Failing, halting, advancing -/

/-- `raise Fail(kind)` (60_exceptions.md R161), the block's whole exception entry: status becomes Failed(kind) and
nothing else changes. There is no return from it (R169); only a reset leaves it (R166). -/
def State.raise (s : State) (k : FailKind) : State := { s with status := .failed k }

/-- The effect of Halt (44_halt.md R150). -/
def State.halt (s : State) : State := { s with status := .halted }

/-- SEQUENCE (10_state.md R24, R30): the jump target when there is one, else pc + oplen, computed exactly
(log entry 8 on a finite WORD_BITS). -/
def State.sequence (s : State) (oplen : Nat) (target : Option Int) : State :=
  { s with pc := target.getD (s.pc + oplen) }

/-- `Store(d, c)` (30_encoding.md R79). -/
def State.store (s : State) (d : Nat) (c : Cell) : State := { s with mem := s.mem.set d c }

/-- `emit(v)` (41_io.md R112): `v` is appended to `Out`. -/
def State.emit (s : State) (v : Int) : State := { s with out := s.out ++ [v] }

/-- The queue after a dequeue left `rest` in it (41_io.md R117). -/
def State.withQueue (s : State) (rest : List Token) : State := { s with inQ := rest }

/-- The end of an instruction: its next state, or the failure it raised. -/
def State.finish (s : State) (r : Except FailKind State) : Outcome :=
  match r with
  | .ok t => .next t
  | .error k => .next (s.raise k)

/-! ### The host's actions -/

/-- `in_ready` (10_state.md R29, 41_io.md R116): the queue takes one more token. -/
def State.inReady (s : State) : Bool :=
  match s.cfg.inputDepth with
  | none => true
  | some d => decide (s.inQ.length < d)

/-- An accepted push: the token joins the tail of the queue (41_io.md R116). -/
def State.pushToken (s : State) (tok : Token) : State := { s with inQ := s.inQ ++ [tok] }

/-- A reset with an image (70_reset_and_hazards.md R190, R191): the queue keeps its tokens (D13), and the engine has not
had a turn in the new run. -/
def State.restart (s : State) (image : List Int) : State :=
  { s with mem := Memory.load image, pc := 0, status := .running, out := [], fresh := true }

/-! ### Turns -/

/-- The state with the turns `rest` to come. -/
def State.withSchedule (s : State) (rest : List Turn) : State := { s with schedule := rest }

/-- The state at the engine's turn: the engine has had a turn since the last reset. -/
def State.started (s : State) : State := { s with fresh := false }

/-- The state with its next turn listed: when no turn is listed and the run is an unending one, the turns of its next
period are, the last of them the engine's (log entry 5). -/
def State.refill (s : State) : State :=
  match s.schedule, s.future with
  | [], .free n => { s with schedule := Config.laterTurns n ++ [.engine], future := .free (n + 1) }
  | _, _ => s

/-- Whose turn is next (10_state.md R31). -/
def State.upcoming (s : State) : Turn := s.refill.schedule.headD .engine

/-- The state once that turn is taken. -/
def State.taken (s : State) : State := s.refill.withSchedule s.refill.schedule.tail

end Sys2Proof.Machine
end

