-- ==== Sys2Proof/Machine/Flags.lean ====
section
/-! DEFINITION. The block has no flags or condition codes (10_state.md R21). What other machines keep in flags is here
computed where it is used: the results of the compare gates, the conditions of the two jumps and the overflow check
of the adder and multiplier. -/

namespace Sys2Proof.Machine

/-- The result of the adder or multiplier: the exact integer, or `ArithmeticOverflow` when a finite WORD_BITS cannot
hold it (40_arithmetic.md R102). -/
def checkRange (cfg : Config) (r : Int) : Except FailKind Int :=
  if inRange cfg r then .ok r else .error .arithmeticOverflow

/-- 1 when a < b as signed integers, else 0 (43_compare.md R140). -/
def lessThanResult (a b : Int) : Int := if a < b then 1 else 0

/-- 1 when a = b, else 0 (43_compare.md R141). -/
def equalsResult (a b : Int) : Int := if a = b then 1 else 0

/-- What Jump-If-True hands the sequencer (42_control.md R130). -/
def jumpIfTrueTarget (t g : Int) : Option Int := if t ≠ 0 then some g else none

/-- What Jump-If-False hands the sequencer (42_control.md R131). -/
def jumpIfFalseTarget (t g : Int) : Option Int := if t = 0 then some g else none

end Sys2Proof.Machine
end

