-- ==== Sys2Proof/Machine/Operands.lean ====
section
/-! DEFINITION. The operand resolver (30_encoding.md R77, R78, R82) and the fetch of the instruction word. Every check
comes before any effect, in the order of 60_exceptions.md R163. -/

namespace Sys2Proof.Machine

/-- The integer in the cell at `a`: `OutOfBounds` when `a` is outside memory (20_memory.md R54), then
`MemoryCorrupted` when the cell is POISON (30_encoding.md R77). -/
def State.loadInt (s : State) (a : Int) : Except FailKind Int :=
  if s.mem.inBounds a then
    match s.mem.get a.toNat with
    | .val v => .ok v
    | .poison => .error .memoryCorrupted
  else .error .outOfBounds

/-- `ReadOperand(i)` in mode `m` (30_encoding.md R77). -/
def State.readOperand (s : State) (i : Nat) (m : Mode) : Except FailKind Int := do
  let raw ← s.loadInt (s.pc + i)
  match m with
  | .immediate => return raw
  | .position => s.loadInt raw

/-- `WriteTarget(i)` (30_encoding.md R78), which has no mode. The address it gives is inside memory. -/
def State.writeTarget (s : State) (i : Nat) : Except FailKind Nat := do
  let raw ← s.loadInt (s.pc + i)
  if s.mem.inBounds raw then return raw.toNat else .error .outOfBounds

/-- FETCH (10_state.md R30): the cell at `pc`, POISON or not. -/
def State.fetch (s : State) : Except FailKind Cell :=
  if s.mem.inBounds s.pc then .ok (s.mem.get s.pc.toNat) else .error .outOfBounds

end Sys2Proof.Machine
end

