-- ==== Sys2Proof/Machine/Arithmetic.lean ====
section
/-! DEFINITION. The shape shared by the four instructions A, B to C, and the arithmetic instructions. -/

namespace Sys2Proof.Machine

/-- Execute an instruction of format F4 (30_encoding.md R71, R82): operands A and B are read, the destination C is
resolved, `alu` gives the result or fails, and the result is stored last. -/
def State.readReadStore (s : State) (i : Instr) (a b : Mode) (alu : Int → Int → Except FailKind Int) : Outcome :=
  s.finish do
    let x ← s.readOperand 1 a
    let y ← s.readOperand 2 b
    let d ← s.writeTarget 3
    let r ← alu x y
    return (s.store d (.val r)).sequence i.oplen none

/-- ADD (40_arithmetic.md R100). -/
def execAdd (a b : Mode) (wdigit : Nat) (s : State) : Outcome :=
  s.readReadStore (.add a b wdigit) a b fun x y => checkRange s.cfg (x + y)

/-- MUL (40_arithmetic.md R101). -/
def execMul (a b : Mode) (wdigit : Nat) (s : State) : Outcome :=
  s.readReadStore (.mul a b wdigit) a b fun x y => checkRange s.cfg (x * y)

end Sys2Proof.Machine
end

