-- ==== Sys2Proof/Machine/Compare.lean ====
section
/-! DEFINITION. The comparison instructions. -/

namespace Sys2Proof.Machine

/-- LT (43_compare.md R140): never overflows, 0 and 1 are in every range. -/
def execLessThan (a b : Mode) (wdigit : Nat) (s : State) : Outcome :=
  s.readReadStore (.lessThan a b wdigit) a b fun x y => .ok (lessThanResult x y)

/-- EQ (43_compare.md R141). -/
def execEquals (a b : Mode) (wdigit : Nat) (s : State) : Outcome :=
  s.readReadStore (.equals a b wdigit) a b fun x y => .ok (equalsResult x y)

end Sys2Proof.Machine
end

