-- ==== Sys2Proof/Machine/Control.lean ====
section
/-! DEFINITION. The jumps (the PC sequencer's jump logic) and Halt. -/

namespace Sys2Proof.Machine

/-- Execute a jump (42_control.md R130, R131, R132): the target operand is resolved even when the jump is not taken
(D6), and the target itself is not checked (D9). -/
def State.jumpOn (s : State) (i : Instr) (a b : Mode) (target : Int → Int → Option Int) : Outcome :=
  s.finish do
    let t ← s.readOperand 1 a
    let g ← s.readOperand 2 b
    return s.sequence i.oplen (target t g)

/-- JT (42_control.md R130). -/
def execJumpIfTrue (a b : Mode) (s : State) : Outcome := s.jumpOn (.jumpIfTrue a b) a b jumpIfTrueTarget

/-- JF (42_control.md R131). -/
def execJumpIfFalse (a b : Mode) (s : State) : Outcome := s.jumpOn (.jumpIfFalse a b) a b jumpIfFalseTarget

/-- HALT (44_halt.md R150): pc, memory and the queue keep their contents. -/
def execHalt (s : State) : Outcome := .next s.halt

end Sys2Proof.Machine
end

