-- ==== Sys2Proof/Machine/InputOutput.lean ====
section
/-! DEFINITION. The input and output instructions. -/

namespace Sys2Proof.Machine

/-- IN (41_io.md R110): the destination is resolved before the wait (D10), so a failing Input consumes nothing. With
an empty queue the engine has no step (R118): its turn changes nothing. DESIGN CHOICE, safe (log entry 6). -/
def execInput (wdigit : Nat) (s : State) : Outcome :=
  s.finish do
    let d ← s.writeTarget 1
    match s.inQ with
    | [] => return s
    | tok :: rest =>
      return ((s.withQueue rest).store d (tokenCell s.cfg tok)).sequence (Instr.input wdigit).oplen none

/-- OUT (41_io.md R111). -/
def execOutput (a : Mode) (s : State) : Outcome :=
  s.finish do
    let v ← s.readOperand 1 a
    return (s.emit v).sequence (Instr.output a).oplen none

end Sys2Proof.Machine
end

