-- ==== Sys2Proof/Machine/Engine.lean ====
section
/-! DEFINITION. The execution cycle of the engine, the turn of engine or host, and the block's output ports. -/

namespace Sys2Proof.Machine

/-- One step of the engine (10_state.md R30): fetch, decode, execute; a failure of the first two ends the step too. In
a terminal status the engine has no step (60_exceptions.md R166): its turn changes nothing. DESIGN CHOICE, safe
(log entry 6). -/
def engineStep (s : State) : Outcome :=
  match s.status with
  | .running =>
    match s.fetch with
    | .error k => .next (s.raise k)
    | .ok c =>
      match decode c with
      | .fail k => .next (s.raise k)
      | .instr i => exec i s
  | .halted => .next s
  | .failed _ => .next s

/-- The next turn, of the engine or of the host (10_state.md R31). A push the queue has no room for is held and the
engine steps instead (41_io.md R116; DESIGN CHOICE, safe, log entry 7). A reset image out of range is refused (DEDUCED,
safe, log entry 17). -/
def takeTurn (s : State) : Outcome :=
  match s.upcoming with
  | .engine => engineStep s.taken.started
  | .push tok => if s.inReady then .next (s.taken.pushToken tok) else engineStep s.refill.started
  | .reset image =>
    if image.all (inRange s.cfg) then .next (s.taken.restart image) else .refused .imageOutOfRange

/-- The condition of state of 10_state.md R25: the engine runs, the instruction at pc is an Input whose destination
resolves, and the queue is empty. -/
def State.inputFindsNoToken (s : State) : Bool :=
  match s.status, s.fetch with
  | .running, .ok c =>
    match decode c with
    | .instr (.input _) => (match s.writeTarget 1 with | .ok _ => true | .error _ => false) && s.inQ.isEmpty
    | _ => false
  | _, _ => false

/-- The engine is awaiting input: exactly when the condition of 10_state.md R25 holds, but for the time between a reset and
the engine's first turn, where it waits if the parameter `waitsFromReset` says so. With it this is R25 in every state,
without it what 70_reset_and_hazards.md R191 lists after a reset. DESIGN CHOICE, safe (log entry 16). -/
def State.awaiting (s : State) : Bool := s.inputFindsNoToken && (s.cfg.waitsFromReset || !s.fresh)

/-- The code of a fail kind (60_exceptions.md R160). -/
def failCode : FailKind → Nat
  | .unrecognizedOpcode => 1
  | .invalidOperandMode => 2
  | .memoryCorrupted => 3
  | .outOfBounds => 4
  | .arithmeticOverflow => 5

/-- The port `status_o` (10_state.md R26). -/
def State.statusPort (s : State) : Nat :=
  match s.status with
  | .running => 0
  | .halted => 1
  | .failed _ => 2

/-- The port `fail_kind_o` (10_state.md R26). -/
def State.failKindPort (s : State) : Nat :=
  match s.status with
  | .failed k => failCode k
  | .running => 0
  | .halted => 0

/-- The port `waiting_o` (10_state.md R26). -/
def State.waitingPort (s : State) : Nat := if s.awaiting then 1 else 0

/-- The diagnostic port `pc_o` (10_state.md R29). -/
def State.pcPort (s : State) : Int := s.pc

/-- The diagnostic port `dbg_mem(a)` (10_state.md R29): the cell at `a`. DESIGN CHOICE, safe (log entry 12): no cell
for an address outside memory. -/
def State.debugRead (s : State) (a : Int) : Option Cell :=
  if s.mem.inBounds a then some (s.mem.get a.toNat) else none

end Sys2Proof.Machine
end

