-- ==== Sys2Proof/Machine/Step.lean ====
section
/-! DEFINITION. One step of the machine, and the state in which the next step runs a given instruction word. -/

namespace Sys2Proof.Machine

/-- One step: the turn of the engine or of the host (10_state.md R30, R31). -/
def step (s : State) : Host.Outcome State Fault Refusal := takeTurn s

/-- `s` with the instruction word `w` and three operand cells of zero where the next fetch reads them. Memory grows to
hold them, a negative pc (from which nothing can be fetched) becomes 0, the engine runs, has had a turn, and the next
turn is its own, so that the next step is exactly the instruction (log entry 10). -/
def State.withFetchWord (s : State) (_nbits w : Nat) : State :=
  let at_ := s.pc.toNat
  let grown : Memory := { s.mem with size := max s.mem.size (at_ + 4) }
  { s with
    mem := (((grown.set at_ (.val (w : Int))).set (at_ + 1) (.val 0)).set (at_ + 2) (.val 0)).set (at_ + 3) (.val 0)
    pc := (at_ : Int)
    status := .running
    schedule := []
    future := .quiet
    fresh := false }

end Sys2Proof.Machine
end

