-- ==== Sys2Proof/Safety.lean ====
section
/-! DEFINITION. The terms claims are stated in: the invariant of the machine, a finished run, what an instruction
never touches, a memory that differs from another at one address only. -/

namespace Sys2Proof.Machine

/-- The parameters are ones 00_scope.md R6 allows: WORD_BITS none or at least 8, INPUT_DEPTH none or positive. -/
def configOk (cfg : Config) : Bool :=
  (match cfg.wordBits with | none => true | some w => decide (8 ≤ w)) &&
    (match cfg.inputDepth with | none => true | some d => decide (0 < d))

/-- A `Val` cell is in the range of 10_state.md R22; POISON has no range. -/
def cellInRange (cfg : Config) : Cell → Bool
  | .val v => inRange cfg v
  | .poison => true

/-- The queue is no longer than INPUT_DEPTH (41_io.md R116). -/
def queueFits (cfg : Config) (q : List Token) : Bool :=
  match cfg.inputDepth with
  | none => true
  | some d => decide (q.length ≤ d)

/-- What holds of the block at power-on and after every step: allowed parameters, memory in its canonical form, every
stored and every emitted integer in range (10_state.md R22), the queue within its depth (41_io.md R116). -/
structure State.Inv (s : State) : Prop where
  config : configOk s.cfg = true
  memory : s.mem.wf = true
  cells : ∀ a, cellInRange s.cfg (s.mem.get a) = true
  outputs : ∀ v ∈ s.out, inRange s.cfg v = true
  queue : queueFits s.cfg s.inQ = true

/-- A run is finished exactly when the status is terminal (60_exceptions.md R165). -/
def State.finished (s : State) : Bool :=
  match s.status with
  | .running => false
  | .halted => true
  | .failed _ => true

/-- `t` has the parameters, the turns to come and the mark of a fresh run of `s`. -/
def State.SameSetting (s t : State) : Prop :=
  t.cfg = s.cfg ∧ t.schedule = s.schedule ∧ t.future = s.future ∧ t.fresh = s.fresh

/-- `m'` is `m` but perhaps for the cell at `d`: the same size, and every other address reads as before. -/
def Memory.SameOutside (d : Nat) (m m' : Memory) : Prop :=
  m'.size = m.size ∧ ∀ x, x ≠ d → m'.get x = m.get x

end Sys2Proof.Machine
end

