-- ==== Sys2Proof/Certificates/Slice0/Obligations.lean ====
section
/-! DEFINITION. The statements about the block. "Every other field" in a frame means every field of State,
the model's own (`cfg`, `schedule`, `future`, `fresh`, log entries 2, 5 and 16) among them. -/

open Sys2Proof Sys2Proof.Machine

/-! ### Decoder and encoder -/

/-- Exactly a POISON cell, a negative word and a word whose opcode field is 0 or 9 to 98 decode to UnrecognizedOpcode,
and fetching one fails with that kind and changes nothing else (30_encoding.md section 4; the POISON cell and the
negative word are the spec's own decisions D4 and D3). -/
def Obligations.IllegalWordsFailUnrecognized : Prop :=
  ∀ c : Cell,
    (decode c = .fail .unrecognizedOpcode ↔
      c = .poison ∨ ∃ w : Int, c = .val w ∧ (w < 0 ∨ w % 100 = 0 ∨ (9 ≤ w % 100 ∧ w % 100 ≤ 98))) ∧
    ∀ s : State, s.status = .running → s.fetch = .ok c →
      (c = .poison ∨ ∃ w : Int, c = .val w ∧ (w < 0 ∨ w % 100 = 0 ∨ (9 ≤ w % 100 ∧ w % 100 ≤ 98))) →
      engineStep s = .next { s with status := .failed .unrecognizedOpcode }

/-- 30_encoding.md R84: exactly a digit 2 to 9 at the place of a read operand's mode decodes to InvalidOperandMode, and
fetching such a word fails with that kind and changes nothing else. -/
def Obligations.BadReadModeFailsInvalidMode : Prop :=
  ∀ w : Nat,
    (decode (.val (w : Int)) = .fail .invalidOperandMode ↔
      (w % 100 = 4 ∧ 2 ≤ w / 100 % 10) ∨
      ((w % 100 = 1 ∨ w % 100 = 2 ∨ w % 100 = 5 ∨ w % 100 = 6 ∨ w % 100 = 7 ∨ w % 100 = 8) ∧
        (2 ≤ w / 100 % 10 ∨ 2 ≤ w / 1000 % 10))) ∧
    ∀ s : State, s.status = .running → s.fetch = .ok (.val (w : Int)) →
      ((w % 100 = 4 ∧ 2 ≤ w / 100 % 10) ∨
        ((w % 100 = 1 ∨ w % 100 = 2 ∨ w % 100 = 5 ∨ w % 100 = 6 ∨ w % 100 = 7 ∨ w % 100 = 8) ∧
          (2 ≤ w / 100 % 10 ∨ 2 ≤ w / 1000 % 10))) →
      engineStep s = .next { s with status := .failed .invalidOperandMode }

/-- Digits above the last mode digit do not change what a word decodes to (30_encoding.md section 2; the spec's decision
D22). -/
def Obligations.HighDigitsAreIgnored : Prop :=
  ∀ (w k : Nat) (i : Instr), decode (.val (w : Int)) = .instr i →
    decode (.val ((w + 10 ^ (i.oplen + 1) * k : Nat) : Int)) = .instr i

/-- 30_encoding.md R76: a read operand's digit 0 is position mode, which dereferences its cell, and digit 1 immediate
mode, which takes the cell literally; a write operand's digit, whichever of 0 to 9, is accepted and has no effect, and
the destination is the raw value of the operand cell. -/
def Obligations.AddressingModesAndWriteDigit : Prop :=
  (∀ (w : Nat) (a b : Mode) (d : Nat) (i : Instr), decode (.val (w : Int)) = .instr i →
    (i = .output a ∨ i = .add a b d ∨ i = .mul a b d ∨ i = .jumpIfTrue a b ∨ i = .jumpIfFalse a b ∨
      i = .lessThan a b d ∨ i = .equals a b d →
      (a = .position ∧ w / 100 % 10 = 0) ∨ (a = .immediate ∧ w / 100 % 10 = 1)) ∧
    (i = .add a b d ∨ i = .mul a b d ∨ i = .jumpIfTrue a b ∨ i = .jumpIfFalse a b ∨
      i = .lessThan a b d ∨ i = .equals a b d →
      (b = .position ∧ w / 1000 % 10 = 0) ∨ (b = .immediate ∧ w / 1000 % 10 = 1))) ∧
  (∀ (s : State) (i : Nat) (raw : Int), s.readOperand i .immediate = .ok raw →
    s.readOperand i .position = s.loadInt raw ∧ ∀ d, s.writeTarget i = .ok d → (d : Int) = raw) ∧
  ∀ (a b : Mode) (d : Nat), d < 10 →
    decode (.val ((1 + 100 * modeDigit a + 1000 * modeDigit b + 10000 * d : Nat) : Int)) = .instr (.add a b d) ∧
    decode (.val ((2 + 100 * modeDigit a + 1000 * modeDigit b + 10000 * d : Nat) : Int)) = .instr (.mul a b d) ∧
    decode (.val ((7 + 100 * modeDigit a + 1000 * modeDigit b + 10000 * d : Nat) : Int)) = .instr (.lessThan a b d) ∧
    decode (.val ((8 + 100 * modeDigit a + 1000 * modeDigit b + 10000 * d : Nat) : Int)) = .instr (.equals a b d) ∧
    decode (.val ((3 + 100 * d : Nat) : Int)) = .instr (.input d) ∧
    ∀ s : State, exec (.add a b d) s = exec (.add a b 0) s ∧ exec (.mul a b d) s = exec (.mul a b 0) s ∧
      exec (.lessThan a b d) s = exec (.lessThan a b 0) s ∧ exec (.equals a b d) s = exec (.equals a b 0) s ∧
      exec (.input d) s = exec (.input 0) s

/-- Decoding the encoding of a well-formed instruction gives the instruction back, every mode and every write digit
kept. -/
def Obligations.DecodeEncodeRoundTrip : Prop :=
  ∀ i : Instr, i.wellFormed = true → decode (.val (encode i : Int)) = .instr i

/-- A word that decodes to an instruction decodes to a well-formed one, whose encoding is the word without its ignored
digits. -/
def Obligations.EncodeDecodeDropsOnlyIgnoredDigits : Prop :=
  ∀ (w : Nat) (i : Instr), decode (.val (w : Int)) = .instr i →
    i.wellFormed = true ∧ encode i = w % 10 ^ (i.oplen + 1)

/-- Words of 95_test_vectors.md L2-1 decode to the instructions the table gives. -/
def Obligations.SpecWordsDecode : Prop :=
  decode (.val 1002) = .instr (.mul .position .immediate 0) ∧
  decode (.val 1111101) = .instr (.add .immediate .immediate 1) ∧
  decode (.val 903) = .instr (.input 9) ∧
  decode (.val 104) = .instr (.output .immediate) ∧
  decode (.val 10005) = .instr (.jumpIfTrue .position .position) ∧
  decode (.val 1106) = .instr (.jumpIfFalse .immediate .immediate) ∧
  decode (.val 20007) = .instr (.lessThan .position .position 2) ∧
  decode (.val 1108) = .instr (.equals .immediate .immediate 0) ∧
  decode (.val 12399) = .instr .halt

/-- An assembled line is its instruction word, which decodes to the line's instruction, followed by its operand cells;
the cells number oplen (30_encoding.md sections 1 and 5). -/
def Obligations.AssembledLineDecodes : Prop :=
  ∀ (l : AsmLine) (i : Instr), l.instr? = some i →
    ∃ w : Int, l.assemble = w :: l.operandCells ∧ decode (.val w) = .instr i ∧ l.assemble.length = i.oplen

/-! ### Operand resolver -/

/-- 30_encoding.md R81: a read operand's value is the whole signed integer of its cell, which is the cell after the
instruction word in immediate mode and, in position mode, the cell at the absolute address that one holds. -/
def Obligations.OperandValueIsWholeCell : Prop :=
  ∀ (s : State) (i : Nat) (v : Int),
    let p : Int := s.pc + i
    (s.readOperand i .immediate = .ok v ↔ (0 ≤ p ∧ p < s.mem.size) ∧ s.mem.get p.toNat = .val v) ∧
    (s.readOperand i .position = .ok v ↔
      ∃ raw : Int, (0 ≤ p ∧ p < s.mem.size) ∧ s.mem.get p.toNat = .val raw ∧
        (0 ≤ raw ∧ raw < s.mem.size) ∧ s.mem.get raw.toNat = .val v)

/-- When ReadOperand fails, the first of its checks that fails is reported: the operand cell's bounds, the operand cell
POISON, then in position mode the address's bounds and the addressed cell POISON (30_encoding.md section 3; the order is
the spec's decisions D7 and D8). -/
def Obligations.ReadOperandFailsInOrder : Prop :=
  ∀ (s : State) (i : Nat),
    let p : Int := s.pc + i
    (∀ m, ¬ (0 ≤ p ∧ p < s.mem.size) → s.readOperand i m = .error .outOfBounds) ∧
    (∀ m, 0 ≤ p ∧ p < s.mem.size → s.mem.get p.toNat = .poison → s.readOperand i m = .error .memoryCorrupted) ∧
    ∀ raw : Int, 0 ≤ p ∧ p < s.mem.size → s.mem.get p.toNat = .val raw →
      (¬ (0 ≤ raw ∧ raw < s.mem.size) → s.readOperand i .position = .error .outOfBounds) ∧
      (0 ≤ raw ∧ raw < s.mem.size → s.mem.get raw.toNat = .poison →
        s.readOperand i .position = .error .memoryCorrupted)

/-- What WriteTarget answers in every case; it has no mode digit to look at (30_encoding.md section 3; when the
destination is bounds-checked is the spec's decisions D7 and D10). -/
def Obligations.WriteTargetFollowsResolver : Prop :=
  ∀ (s : State) (i : Nat),
    let p : Int := s.pc + i
    (¬ (0 ≤ p ∧ p < s.mem.size) → s.writeTarget i = .error .outOfBounds) ∧
    (0 ≤ p ∧ p < s.mem.size → s.mem.get p.toNat = .poison → s.writeTarget i = .error .memoryCorrupted) ∧
    ∀ raw : Int, 0 ≤ p ∧ p < s.mem.size → s.mem.get p.toNat = .val raw →
      (¬ (0 ≤ raw ∧ raw < s.mem.size) → s.writeTarget i = .error .outOfBounds) ∧
      (0 ≤ raw ∧ raw < s.mem.size → s.writeTarget i = .ok raw.toNat)

/-- An access outside memory raises OutOfBounds and does not happen: the fetch at pc, the fetch of an operand cell, the
dereference of a position-mode operand and the destination of a write. An operand that answers OutOfBounds makes the
instruction that resolves it first fail so, with nothing written, emitted or consumed (20_memory.md section 1; that
operands are resolved in the order 1, 2, 3, a jump's target even when it is not taken, and before any wait, is the spec's
decisions D6, D7 and D10). -/
def Obligations.OutOfBoundsAccessFails : Prop :=
  (∀ s : State, s.status = .running → ¬ (0 ≤ s.pc ∧ s.pc < s.mem.size) →
    engineStep s = .next { s with status := .failed .outOfBounds }) ∧
  (∀ (s : State) (i : Nat), ¬ (0 ≤ s.pc + i ∧ s.pc + i < s.mem.size) →
    (∀ m, s.readOperand i m = .error .outOfBounds) ∧ s.writeTarget i = .error .outOfBounds) ∧
  (∀ (s : State) (i : Nat) (raw : Int), s.readOperand i .immediate = .ok raw → ¬ (0 ≤ raw ∧ raw < s.mem.size) →
    s.readOperand i .position = .error .outOfBounds ∧ s.writeTarget i = .error .outOfBounds) ∧
  ∀ (s : State) (a b : Mode) (w : Nat),
    (s.readOperand 1 a = .error .outOfBounds →
      ∀ i ∈ [Instr.add a b w, .mul a b w, .output a, .jumpIfTrue a b, .jumpIfFalse a b, .lessThan a b w, .equals a b w],
        exec i s = .next { s with status := .failed .outOfBounds }) ∧
    (∀ x, s.readOperand 1 a = .ok x → s.readOperand 2 b = .error .outOfBounds →
      ∀ i ∈ [Instr.add a b w, .mul a b w, .jumpIfTrue a b, .jumpIfFalse a b, .lessThan a b w, .equals a b w],
        exec i s = .next { s with status := .failed .outOfBounds }) ∧
    (∀ x y, s.readOperand 1 a = .ok x → s.readOperand 2 b = .ok y → s.writeTarget 3 = .error .outOfBounds →
      ∀ i ∈ [Instr.add a b w, .mul a b w, .lessThan a b w, .equals a b w],
        exec i s = .next { s with status := .failed .outOfBounds }) ∧
    (s.writeTarget 1 = .error .outOfBounds → exec (.input w) s = .next { s with status := .failed .outOfBounds })

/-! ### Arithmetic and comparison -/

/-- ADD completes whenever its operands resolve and the sum is in range: the sum is stored, pc advances by 4, every
other address reads as before and every other field is unchanged. -/
def Obligations.AddStoresSum : Prop :=
  ∀ (a b : Mode) (w : Nat) (s : State) (x y : Int) (d : Nat),
    s.readOperand 1 a = .ok x → s.readOperand 2 b = .ok y → s.writeTarget 3 = .ok d → inRange s.cfg (x + y) = true →
    ∃ t, exec (.add a b w) s = .next t ∧ t.mem.get d = .val (x + y) ∧ Memory.SameOutside d s.mem t.mem ∧
      t.pc = s.pc + 4 ∧ t.status = s.status ∧ t.inQ = s.inQ ∧ t.out = s.out ∧ s.SameSetting t

/-- MUL, the same with the product. -/
def Obligations.MultiplyStoresProduct : Prop :=
  ∀ (a b : Mode) (w : Nat) (s : State) (x y : Int) (d : Nat),
    s.readOperand 1 a = .ok x → s.readOperand 2 b = .ok y → s.writeTarget 3 = .ok d → inRange s.cfg (x * y) = true →
    ∃ t, exec (.mul a b w) s = .next t ∧ t.mem.get d = .val (x * y) ∧ Memory.SameOutside d s.mem t.mem ∧
      t.pc = s.pc + 4 ∧ t.status = s.status ∧ t.inQ = s.inQ ∧ t.out = s.out ∧ s.SameSetting t

/-- 43_compare.md R140. Whenever its operands resolve, whatever the parameters, LT completes and stores exactly 1 or
0: pc advances by 4, every other address reads as before, every other field is unchanged. The first operand that does
not resolve is the failure, with no effect; ArithmeticOverflow never is. Its word is 7 with its mode digits, and a
digit 2 to 9 for A or B is InvalidOperandMode. -/
def Obligations.LessThanStoresZeroOrOne : Prop :=
  (∀ (a b : Mode) (w : Nat) (s : State) (x y : Int) (d : Nat),
    s.readOperand 1 a = .ok x → s.readOperand 2 b = .ok y → s.writeTarget 3 = .ok d →
    ∃ t, exec (.lessThan a b w) s = .next t ∧
      (x < y → t.mem.get d = .val 1) ∧ (y ≤ x → t.mem.get d = .val 0) ∧ Memory.SameOutside d s.mem t.mem ∧
      t.pc = s.pc + 4 ∧ t.status = s.status ∧ t.inQ = s.inQ ∧ t.out = s.out ∧ s.SameSetting t) ∧
  (∀ (a b : Mode) (w : Nat) (s : State) (k : FailKind),
    s.readOperand 1 a = .error k ∨
    (∃ x, s.readOperand 1 a = .ok x ∧ s.readOperand 2 b = .error k) ∨
    (∃ x y, s.readOperand 1 a = .ok x ∧ s.readOperand 2 b = .ok y ∧ s.writeTarget 3 = .error k) →
    (k = .outOfBounds ∨ k = .memoryCorrupted) ∧ exec (.lessThan a b w) s = .next { s with status := .failed k }) ∧
  ∀ m1 m2 m3 : Nat, m1 < 10 → m2 < 10 → m3 < 10 →
    (2 ≤ m1 ∨ 2 ≤ m2 →
      decode (.val ((7 + 100 * m1 + 1000 * m2 + 10000 * m3 : Nat) : Int)) = .fail .invalidOperandMode) ∧
    ∀ a b, m1 = modeDigit a → m2 = modeDigit b →
      decode (.val ((7 + 100 * m1 + 1000 * m2 + 10000 * m3 : Nat) : Int)) = .instr (.lessThan a b m3)

/-- 43_compare.md R141. Whenever its operands resolve, whatever the parameters, EQ completes and stores exactly 1 or
0: pc advances by 4, every other address reads as before, every other field is unchanged. The first operand that does
not resolve is the failure, with no effect; ArithmeticOverflow never is. Its word is 8 with its mode digits, and a
digit 2 to 9 for A or B is InvalidOperandMode. -/
def Obligations.EqualsStoresZeroOrOne : Prop :=
  (∀ (a b : Mode) (w : Nat) (s : State) (x y : Int) (d : Nat),
    s.readOperand 1 a = .ok x → s.readOperand 2 b = .ok y → s.writeTarget 3 = .ok d →
    ∃ t, exec (.equals a b w) s = .next t ∧
      (x = y → t.mem.get d = .val 1) ∧ (x ≠ y → t.mem.get d = .val 0) ∧ Memory.SameOutside d s.mem t.mem ∧
      t.pc = s.pc + 4 ∧ t.status = s.status ∧ t.inQ = s.inQ ∧ t.out = s.out ∧ s.SameSetting t) ∧
  (∀ (a b : Mode) (w : Nat) (s : State) (k : FailKind),
    s.readOperand 1 a = .error k ∨
    (∃ x, s.readOperand 1 a = .ok x ∧ s.readOperand 2 b = .error k) ∨
    (∃ x y, s.readOperand 1 a = .ok x ∧ s.readOperand 2 b = .ok y ∧ s.writeTarget 3 = .error k) →
    (k = .outOfBounds ∨ k = .memoryCorrupted) ∧ exec (.equals a b w) s = .next { s with status := .failed k }) ∧
  ∀ m1 m2 m3 : Nat, m1 < 10 → m2 < 10 → m3 < 10 →
    (2 ≤ m1 ∨ 2 ≤ m2 →
      decode (.val ((8 + 100 * m1 + 1000 * m2 + 10000 * m3 : Nat) : Int)) = .fail .invalidOperandMode) ∧
    ∀ a b, m1 = modeDigit a → m2 = modeDigit b →
      decode (.val ((8 + 100 * m1 + 1000 * m2 + 10000 * m3 : Nat) : Int)) = .instr (.equals a b m3)

/-- An ADD or MUL whose exact result a finite WORD_BITS cannot hold fails with ArithmeticOverflow and stores nothing
(40_arithmetic.md section 3; the spec's decision D2). -/
def Obligations.OutOfRangeResultFails : Prop :=
  ∀ (a b : Mode) (w : Nat) (s : State) (x y : Int) (d : Nat),
    s.readOperand 1 a = .ok x → s.readOperand 2 b = .ok y → s.writeTarget 3 = .ok d →
    (inRange s.cfg (x + y) = false →
      exec (.add a b w) s = .next { s with status := .failed .arithmeticOverflow }) ∧
    (inRange s.cfg (x * y) = false →
      exec (.mul a b w) s = .next { s with status := .failed .arithmeticOverflow })

/-- 40_arithmetic.md R103: after an ADD or MUL completes, that is keeps the engine running, pc is the instruction's
address plus 4. -/
def Obligations.AddMulResumeFourCellsOn : Prop :=
  ∀ (a b : Mode) (w : Nat) (s t : State), s.status = .running → t.status = .running →
    exec (.add a b w) s = .next t ∨ exec (.mul a b w) s = .next t → t.pc = s.pc + 4

/-- The four instructions with two sources and a destination report the first operand, in the order 1, 2, 3, that does
not resolve, and change nothing but the status (60_exceptions.md section 2; the spec's decisions D6 and D7). -/
def Obligations.FirstFailingOperandIsReported : Prop :=
  ∀ (a b : Mode) (w : Nat) (i : Instr),
    i = .add a b w ∨ i = .mul a b w ∨ i = .lessThan a b w ∨ i = .equals a b w →
    ∀ (s : State) (k : FailKind),
      s.readOperand 1 a = .error k ∨
      (∃ x, s.readOperand 1 a = .ok x ∧ s.readOperand 2 b = .error k) ∨
      (∃ x y, s.readOperand 1 a = .ok x ∧ s.readOperand 2 b = .ok y ∧ s.writeTarget 3 = .error k) →
      exec i s = .next { s with status := .failed k }

/-- Only an ADD or MUL under a finite WORD_BITS can end an engine step in ArithmeticOverflow. -/
def Obligations.OverflowNeedsFiniteWordAndArithmetic : Prop :=
  ∀ s t : State, s.status = .running → engineStep s = .next t → t.status = .failed .arithmeticOverflow →
    ∃ (n : Nat) (a b : Mode) (w : Nat) (c : Cell), s.cfg.wordBits = some n ∧ s.fetch = .ok c ∧
      (decode c = .instr (.add a b w) ∨ decode c = .instr (.mul a b w))

/-! ### Input and output -/

/-- IN with a destination that resolves and a token at the head of the queue takes exactly that token and stores its
integer, or POISON when the token does not convert or its integer is out of range; every other address reads as before
and every other field is unchanged (41_io.md sections 1 and 4; an out-of-range integer stored as POISON is the spec's
decision D2, the open conversion its decision D11). -/
def Obligations.InputStoresOldestToken : Prop :=
  ∀ (w : Nat) (s : State) (d : Nat) (tok : Token) (rest : List Token),
    s.writeTarget 1 = .ok d → s.inQ = tok :: rest →
    ∃ t, exec (.input w) s = .next t ∧
      (∀ v, parseToken s.cfg tok = some v → inRange s.cfg v = true → t.mem.get d = .val v) ∧
      (∀ v, parseToken s.cfg tok = some v → inRange s.cfg v = false → t.mem.get d = .poison) ∧
      (parseToken s.cfg tok = none → t.mem.get d = .poison) ∧
      Memory.SameOutside d s.mem t.mem ∧ t.inQ = rest ∧
      t.pc = s.pc + 2 ∧ t.status = s.status ∧ t.out = s.out ∧ s.SameSetting t

/-- An IN whose destination does not resolve fails at once, whatever the queue holds, and takes no token
(41_io.md section 1; the spec's decision D10). -/
def Obligations.InputFailsBeforeTakingToken : Prop :=
  ∀ (w : Nat) (s : State) (k : FailKind), s.writeTarget 1 = .error k →
    exec (.input w) s = .next { s with status := .failed k }

/-- While the engine awaits input its turn changes nothing but that the turn is taken and the run is no longer fresh (no
instruction executes, pc, memory and Out stay, no failure), and only an accepted push or a reset can end the wait
(41_io.md section 4; that the turn answers the same state is the model's choice, log entry 6). -/
def Obligations.AwaitingEngineStaysSuspended : Prop :=
  ∀ s : State, s.awaiting = true →
    (s.upcoming = .engine → step s = .next { s.taken with fresh := false }) ∧
    ∀ t, step s = .next t → t.awaiting = false →
      (∃ tok, s.upcoming = .push tok ∧ s.inReady = true) ∨ ∃ image, s.upcoming = .reset image

/-- 41_io.md R117: an Input that completes takes the oldest token and no more, and tokens leave the queue in no other
way: every other step leaves the queued tokens at the front of the queue, in order. -/
def Obligations.OnlyInputRemovesTokens : Prop :=
  (∀ (w : Nat) (s : State) (d : Nat) (tok : Token) (rest : List Token), s.writeTarget 1 = .ok d → s.inQ = tok :: rest →
    ∃ t, exec (.input w) s = .next t ∧ t.inQ = rest ∧ t.mem.get d = tokenCell s.cfg tok) ∧
  ∀ s t : State, step s = .next t →
    (∃ suffix, t.inQ = s.inQ ++ suffix) ∨
    (∃ tok c w, s.inQ = tok :: t.inQ ∧ s.status = .running ∧ s.fetch = .ok c ∧ decode c = .instr (.input w) ∧
      t.status = .running ∧ t.pc = s.pc + 2)

/-- 41_io.md R120: a token that does not convert makes the Input complete and store POISON; POISON fails where it is used:
as a read operand or its address, as a destination, as an instruction word; a write over it, of a result or of a token
that converts, removes it; and no step fails with MemoryCorrupted but by a POISON cell that is an operand cell of its
instruction or that a position-mode read operand of it addresses. -/
def Obligations.MalformedTokenFailsAtUse : Prop :=
  (∀ (w : Nat) (s : State) (d : Nat) (tok : Token) (rest : List Token),
    s.writeTarget 1 = .ok d → s.inQ = tok :: rest → parseToken s.cfg tok = none →
    ∃ t, exec (.input w) s = .next t ∧ t.mem.get d = .poison ∧ t.status = s.status ∧ t.pc = s.pc + 2) ∧
  (∀ (s : State) (i : Nat) (p : Nat), (p : Int) = s.pc + i → p < s.mem.size → s.mem.get p = .poison →
    (∀ m, s.readOperand i m = .error .memoryCorrupted) ∧ s.writeTarget i = .error .memoryCorrupted) ∧
  (∀ (s : State) (i : Nat) (p q : Nat), (p : Int) = s.pc + i → p < s.mem.size → s.mem.get p = .val (q : Int) →
    q < s.mem.size → s.mem.get q = .poison → s.readOperand i .position = .error .memoryCorrupted) ∧
  (∀ s : State, s.status = .running → s.fetch = .ok .poison →
    engineStep s = .next { s with status := .failed .unrecognizedOpcode }) ∧
  (∀ s t : State, s.status = .running → engineStep s = .next t → t.status = .failed .memoryCorrupted →
    ∃ (c : Cell) (j : Instr) (i p : Nat), s.fetch = .ok c ∧ decode c = .instr j ∧ 1 ≤ i ∧ i < j.oplen ∧
      p < s.mem.size ∧ s.mem.get p = .poison ∧
      ((p : Int) = s.pc + i ∨
        (j.readModes[i - 1]? = some .position ∧ s.mem.get (s.pc + i).toNat = .val (p : Int)))) ∧
  (∀ (s t : State) (i : Instr) (d : Nat), s.mem.get d = .poison → (∃ a b w, i = .add a b w ∨ i = .mul a b w ∨
      i = .lessThan a b w ∨ i = .equals a b w) → s.writeTarget 3 = .ok d → s.status = .running → t.status = .running →
    exec i s = .next t → t.mem.get d ≠ .poison) ∧
  ∀ (s : State) (w d : Nat) (tok : Token) (rest : List Token) (v : Int), s.mem.get d = .poison →
    s.writeTarget 1 = .ok d → s.inQ = tok :: rest → parseToken s.cfg tok = some v → inRange s.cfg v = true →
    ∃ t, exec (.input w) s = .next t ∧ t.mem.get d = .val v

/-- 41_io.md R111. OUT whose operand resolves appends it to Out and advances pc by 2, and changes nothing else; an operand
that does not resolve is the failure, with nothing emitted. Its word is 4 with its mode digit, and a digit 2 to 9 is
InvalidOperandMode. -/
def Obligations.OutputEmitsOperand : Prop :=
  (∀ (a : Mode) (s : State) (v : Int), s.readOperand 1 a = .ok v →
    exec (.output a) s = .next { s with out := s.out ++ [v], pc := s.pc + 2 }) ∧
  (∀ (a : Mode) (s : State) (k : FailKind), s.readOperand 1 a = .error k →
    (k = .outOfBounds ∨ k = .memoryCorrupted) ∧ exec (.output a) s = .next { s with status := .failed k }) ∧
  decode (.val 4) = .instr (.output .position) ∧ decode (.val 104) = .instr (.output .immediate) ∧
  ∀ m : Nat, 2 ≤ m → m < 10 → decode (.val ((4 + 100 * m : Nat) : Int)) = .fail .invalidOperandMode

/-- Out grows only by an Output, by exactly its operand, at its end; apart from a reset no other step changes it. -/
def Obligations.OnlyOutputEmits : Prop :=
  ∀ s t : State, step s = .next t → (∀ image, s.upcoming ≠ .reset image) →
    t.out = s.out ∨
    ∃ c a v, s.status = .running ∧ s.fetch = .ok c ∧ decode c = .instr (.output a) ∧ s.readOperand 1 a = .ok v ∧
      t.out = s.out ++ [v]

/-- A push into the queue of an awaiting engine ends the wait: at the engine's next turn the Input takes that token,
stores it and moves on (41_io.md section 4). -/
def Obligations.PushedTokenEndsWait : Prop :=
  ∀ (s : State) (tok : Token), s.awaiting = true → s.upcoming = .push tok → s.inReady = true →
    s.taken.upcoming = .engine →
    ∃ u t d, step s = .next u ∧ step u = .next t ∧ s.writeTarget 1 = .ok d ∧ t.mem.get d = tokenCell s.cfg tok ∧
      Memory.SameOutside d s.mem t.mem ∧ t.inQ = [] ∧ t.pc = s.pc + 2 ∧ t.status = .running ∧ t.out = s.out ∧
      t.cfg = s.cfg ∧ t.schedule = s.taken.taken.schedule ∧ t.future = s.taken.taken.future ∧ t.fresh = false

/-- Emitted values are never read back: with any values already in front of Out, an engine step does the same and
leaves them in front of its Out (41_io.md section 3). -/
def Obligations.OutputsAreNeverReadBack : Prop :=
  ∀ (s t : State) (o : List Int), engineStep s = .next t →
    engineStep { s with out := o ++ s.out } = .next { t with out := o ++ t.out }

/-! ### Control transfer and halt -/

/-- JT completes whenever both operands resolve: a test other than 0 loads the target into pc, 0 falls through; nothing
else changes (42_control.md sections 1 and 3; that the target is not checked is the spec's decision D9). -/
def Obligations.JumpIfTrueSetsPc : Prop :=
  ∀ (a b : Mode) (s : State) (x g : Int), s.readOperand 1 a = .ok x → s.readOperand 2 b = .ok g →
    (x ≠ 0 → exec (.jumpIfTrue a b) s = .next { s with pc := g }) ∧
    (x = 0 → exec (.jumpIfTrue a b) s = .next { s with pc := s.pc + 3 })

/-- JF completes whenever both operands resolve: a test of 0 loads the target into pc, any other falls through; nothing
else changes (42_control.md sections 2 and 3; that the target is not checked is the spec's decision D9). -/
def Obligations.JumpIfFalseSetsPc : Prop :=
  ∀ (a b : Mode) (s : State) (x g : Int), s.readOperand 1 a = .ok x → s.readOperand 2 b = .ok g →
    (x = 0 → exec (.jumpIfFalse a b) s = .next { s with pc := g }) ∧
    (x ≠ 0 → exec (.jumpIfFalse a b) s = .next { s with pc := s.pc + 3 })

/-- A jump resolves both operands whether or not it is taken, the test first: the first that fails is reported and
nothing but the status changes (42_control.md sections 1 and 2; the spec's decision D6). -/
def Obligations.JumpsResolveBothOperands : Prop :=
  ∀ (a b : Mode) (i : Instr), i = .jumpIfTrue a b ∨ i = .jumpIfFalse a b →
    ∀ (s : State) (k : FailKind),
      s.readOperand 1 a = .error k ∨ (∃ x, s.readOperand 1 a = .ok x ∧ s.readOperand 2 b = .error k) →
      exec i s = .next { s with status := .failed k }

/-- Running a HALT word, with any digits above its opcode field, ends in Halted at the HALT's address and changes
nothing else (44_halt.md section 1; the digits above are the spec's decision D15). -/
def Obligations.HaltWordStopsEngine : Prop :=
  ∀ (s : State) (w : Nat), s.status = .running → s.fetch = .ok (.val (w : Int)) → w % 100 = 99 →
    exec .halt s = .next { s with status := .halted } ∧ engineStep s = .next { s with status := .halted }

/-- An instruction that keeps the engine running and is not an Input left waiting puts pc at pc + oplen, computed exactly,
or, for a jump only, at its target operand; a Halt and a failure leave pc as it is; a pc outside memory is no error until
the next fetch (10_state.md section 2; the last clause is the spec's own inference). -/
def Obligations.PcSequencing : Prop :=
  (∀ (s t : State) (c : Cell) (i : Instr), s.status = .running → s.fetch = .ok c → decode c = .instr i →
    (∀ w, i = .input w → s.inQ ≠ []) → engineStep s = .next t → t.status = .running →
    t.pc = s.pc + i.oplen ∨
    ∃ a b x g, s.readOperand 1 a = .ok x ∧ s.readOperand 2 b = .ok g ∧ t.pc = g ∧
      ((i = .jumpIfTrue a b ∧ x ≠ 0) ∨ (i = .jumpIfFalse a b ∧ x = 0))) ∧
  (∀ s t : State, engineStep s = .next t → t.status ≠ .running → t.pc = s.pc) ∧
  ∀ s : State, s.status = .running → ¬ (0 ≤ s.pc ∧ s.pc < s.mem.size) →
    engineStep s = .next { s with status := .failed .outOfBounds }

/-- A store into the cell after the instruction is what the next fetch reads, POISON that an Input stores included
(20_memory.md section 4, the spec's own inference). -/
def Obligations.NextFetchSeesStore : Prop :=
  (∀ (a b : Mode) (w : Nat) (s : State) (x y : Int) (d : Nat),
    s.readOperand 1 a = .ok x → s.readOperand 2 b = .ok y → s.writeTarget 3 = .ok d → (d : Int) = s.pc + 4 →
    (inRange s.cfg (x + y) = true → ∃ t, exec (.add a b w) s = .next t ∧ t.fetch = .ok (.val (x + y))) ∧
    (inRange s.cfg (x * y) = true → ∃ t, exec (.mul a b w) s = .next t ∧ t.fetch = .ok (.val (x * y))) ∧
    (∃ t, exec (.lessThan a b w) s = .next t ∧ t.fetch = .ok (.val (if x < y then 1 else 0))) ∧
    ∃ t, exec (.equals a b w) s = .next t ∧ t.fetch = .ok (.val (if x = y then 1 else 0))) ∧
  ∀ (w : Nat) (s : State) (d : Nat) (tok : Token) (rest : List Token),
    s.writeTarget 1 = .ok d → s.inQ = tok :: rest → (d : Int) = s.pc + 2 →
    ∃ t, exec (.input w) s = .next t ∧ t.fetch = .ok (tokenCell s.cfg tok)

/-! ### The engine step and the whole machine -/

/-- When the engine runs and the cell at pc decodes to an instruction, the engine's step is that instruction, and the
machine's step is the engine's when its turn has come: when no turn is listed and the host is quiet, at an engine turn
(which is then taken), and while a push is held because the queue is full. Around the instruction the step only takes the
turn and marks the run as no longer fresh (log entries 5, 7 and 16). -/
def Obligations.StepRunsDecodedInstruction : Prop :=
  ∀ (s : State) (c : Cell) (i : Instr), s.status = .running → s.fetch = .ok c → decode c = .instr i →
    engineStep s = exec i s ∧
    (s.schedule = [] → s.future = .quiet → step s = exec i { s with fresh := false }) ∧
    (s.upcoming = .engine → step s = exec i { s.taken with fresh := false }) ∧
    ∀ tok, s.upcoming = .push tok → s.inReady = false → step s = exec i { s.refill with fresh := false }

/-- Every instruction answers a next state on every state: none faults and none is refused. It is no completion: the next
state may be a failure (log entry 15, DEDUCED) or, of an IN on an empty queue, the same state (log entry 6, the model's
choice). -/
def Obligations.EveryInstructionAnswersNext : Prop :=
  ∀ (i : Instr) (s : State), ∃ t, exec i s = .next t

/-- An engine step that ends in a failure changes the status and nothing else (60_exceptions.md section 1; the spec's
decision D23, and its inference that pc is unchanged). -/
def Obligations.FailureChangesOnlyStatus : Prop :=
  ∀ (s t : State) (k : FailKind), s.status = .running → engineStep s = .next t → t.status = .failed k →
    t = { s with status := .failed k }

/-- One engine step writes at most the destination cell of its instruction: memory reads as before outside the address
WriteTarget(3) gives for ADD, MUL, LT and EQ and WriteTarget(1) gives for IN, and is the same for OUT, JT, JF and HALT, for
an IN on an empty queue, for a failure and in a terminal status. It emits at most one output, consumes at most one token,
and leaves MEM_SIZE, the parameters and the turns to come alone (10_state.md section 7). -/
def Obligations.EngineStepBoundsItsEffects : Prop :=
  ∀ s t : State, engineStep s = .next t →
    (∀ c i, s.status = .running → s.fetch = .ok c → decode c = .instr i →
      (∀ a b w d, i = .add a b w ∨ i = .mul a b w ∨ i = .lessThan a b w ∨ i = .equals a b w →
        s.writeTarget 3 = .ok d → Memory.SameOutside d s.mem t.mem) ∧
      (∀ w d, i = .input w → s.writeTarget 1 = .ok d → Memory.SameOutside d s.mem t.mem) ∧
      (∀ w, i = .input w → s.inQ = [] → t.mem = s.mem) ∧
      (∀ a b, i = .output a ∨ i = .jumpIfTrue a b ∨ i = .jumpIfFalse a b ∨ i = .halt → t.mem = s.mem)) ∧
    (∀ k, t.status = .failed k → t.mem = s.mem) ∧
    (s.status ≠ .running → t.mem = s.mem) ∧
    t.mem.size = s.mem.size ∧
    (t.out = s.out ∨ ∃ v, t.out = s.out ++ [v]) ∧
    (t.inQ = s.inQ ∨ ∃ tok, s.inQ = tok :: t.inQ) ∧
    (t.mem = s.mem ∨ t.out = s.out) ∧ s.SameSetting t

/-- No step changes the parameters, and no step but a reset changes MEM_SIZE. -/
def Obligations.SizeAndParametersAreFixed : Prop :=
  ∀ s t : State, step s = .next t →
    t.cfg = s.cfg ∧ ((∀ image, s.upcoming ≠ .reset image) → t.mem.size = s.mem.size)

/-- In Halted and in Failed(kind) a step that is no reset leaves status, memory, pc and Out as they are and consumes no
token (60_exceptions.md section 3; that only a reset leaves them is the spec's decision D16, that the engine's turn
answers the same state the model's choice, log entry 6). -/
def Obligations.TerminalStatusIsFinal : Prop :=
  ∀ s : State, s.finished = true → (∀ image, s.upcoming ≠ .reset image) →
    ∃ t, step s = .next t ∧ t.status = s.status ∧ t.mem = s.mem ∧ t.pc = s.pc ∧ t.out = s.out ∧
      ∃ suffix, t.inQ = s.inQ ++ suffix

/-- The invariant (log entry 18) is kept by every step, whatever the turn. Its clause that memory is in canonical form
is about the model's representation (log entry 1, the model's choice); the others are 10_state.md section 1 and 41_io.md
section 4. -/
def Obligations.StepKeepsInvariant : Prop :=
  ∀ s t : State, s.Inv → step s = .next t → t.Inv

/-- The state at power-on meets the invariant (log entry 18). Its canonical-form clause is about the model's
representation (log entry 1), and that power-on is over the empty program is the model's reading (log entry 9). -/
def Obligations.PowerOnMeetsInvariant : Prop := State.reset.Inv

/-- At power-on: Running, pc 0, empty queue, no output, not awaiting input, ports 0, 0, 0; memory is that of the empty
program, whose first fetch fails (70_reset_and_hazards.md section 1; the empty program is the model's reading, log entry
9). -/
def Obligations.PowerOnState : Prop :=
  State.reset.status = .running ∧ State.reset.pc = 0 ∧ State.reset.inQ = [] ∧ State.reset.out = [] ∧
  State.reset.mem = Memory.load [] ∧ State.reset.awaiting = false ∧
  State.reset.statusPort = 0 ∧ State.reset.failKindPort = 0 ∧ State.reset.waitingPort = 0 ∧
  engineStep State.reset = .next { State.reset with status := .failed .outOfBounds }

/-- A reset in any state (running, awaiting input or terminal) leaves Running, pc 0, the image in memory, no output, the
queue as it was and the ports 0, 0, with no wait and port 0 whatever the image and the queue or, with the parameter
`waitsFromReset`, unless the image begins with an Input that finds no token (70_reset_and_hazards.md section 1, 10_state.md
section 3; the spec's decisions D13 and D16; the parameter is the model's choice, log entry 16). -/
def Obligations.ResetStartsNewRun : Prop :=
  ∀ (s : State) (image : List Int), s.upcoming = .reset image → (∀ v ∈ image, inRange s.cfg v = true) →
    ∃ t, step s = .next t ∧ t.status = .running ∧ t.pc = 0 ∧ t.out = [] ∧ t.inQ = s.inQ ∧
      t.mem.size = image.length ∧ (∀ (a : Nat) (v : Int), image[a]? = some v → t.mem.get a = .val v) ∧
      t.statusPort = 0 ∧ t.failKindPort = 0 ∧
      (s.cfg.waitsFromReset = false → t.awaiting = false ∧ t.waitingPort = 0) ∧
      (s.cfg.waitsFromReset = true → (t.awaiting = true ↔ t.waitingPort = 1) ∧
        (t.waitingPort = 1 ↔ s.inQ = [] ∧
          ∃ c w d, t.fetch = .ok c ∧ decode c = .instr (.input w) ∧ t.writeTarget 1 = .ok d)) ∧
      t.cfg = s.cfg ∧ t.schedule = s.taken.schedule ∧ t.future = s.taken.future ∧ t.fresh = true

/-- A push is accepted exactly while the queue has room, in any status, and puts the token at the tail; without room the
push stays pending (41_io.md section 4; the spec's decision D12), and the engine steps (the model's choice, log entry
7). -/
def Obligations.PushAppendsOrIsHeld : Prop :=
  ∀ (s : State) (tok : Token), s.upcoming = .push tok →
    (s.cfg.inputDepth = none ∨ (∃ n, s.cfg.inputDepth = some n ∧ s.inQ.length < n) →
      step s = .next { s.taken with inQ := s.inQ ++ [tok] }) ∧
    (∀ n, s.cfg.inputDepth = some n → n ≤ s.inQ.length →
      step s = engineStep { s.refill with fresh := false } ∧ ∀ t, step s = .next t → t.upcoming = .push tok)

/-- A step is refused exactly when it is a reset with an image that holds an integer outside the range of WORD_BITS; no
step faults (70_reset_and_hazards.md section 2: such a host has no defined run). -/
def Obligations.OnlyBadImageIsRefused : Prop :=
  ∀ s : State,
    ((∃ r, step s = .refused r) ↔
      ∃ image, s.upcoming = .reset image ∧ ∃ v ∈ image, inRange s.cfg v = false) ∧
    (∀ r, step s = .refused r → r = .imageOutOfRange) ∧ ∀ f, step s ≠ .fault f

/-- The codes on the status ports, and waiting_o is 1 exactly when the engine is awaiting input: with `waitsFromReset`
exactly when the condition of R25 holds, without it not before the engine's first turn after a reset, where R191 lists 0
(10_state.md section 3; the codes are the spec's decision D17; the parameter is the model's choice, log entry 16). -/
def Obligations.StatusPortCodes : Prop :=
  ∀ s : State,
    (s.status = .running → s.statusPort = 0 ∧ s.failKindPort = 0) ∧
    (s.status = .halted → s.statusPort = 1 ∧ s.failKindPort = 0) ∧
    (s.status = .failed .unrecognizedOpcode → s.statusPort = 2 ∧ s.failKindPort = 1) ∧
    (s.status = .failed .invalidOperandMode → s.statusPort = 2 ∧ s.failKindPort = 2) ∧
    (s.status = .failed .memoryCorrupted → s.statusPort = 2 ∧ s.failKindPort = 3) ∧
    (s.status = .failed .outOfBounds → s.statusPort = 2 ∧ s.failKindPort = 4) ∧
    (s.status = .failed .arithmeticOverflow → s.statusPort = 2 ∧ s.failKindPort = 5) ∧
    (s.waitingPort = 1 ↔ s.status = .running ∧ s.inQ = [] ∧ (s.cfg.waitsFromReset = true ∨ s.fresh = false) ∧
      ∃ c w d, s.fetch = .ok c ∧ decode c = .instr (.input w) ∧ s.writeTarget 1 = .ok d) ∧
    (s.cfg.waitsFromReset = true →
      (s.waitingPort = 1 ↔ s.status = .running ∧ s.inQ = [] ∧
        ∃ c w d, s.fetch = .ok c ∧ decode c = .instr (.input w) ∧ s.writeTarget 1 = .ok d)) ∧
    (s.cfg.waitsFromReset = false → s.fresh = true → s.waitingPort = 0)

/-- Under a finite WORD_BITS the pc stays in its range, when memory is small enough for pc + oplen to be (10_state.md
section 1; the bound on MEM_SIZE is the model's, log entry 8). -/
def Obligations.PcStaysInRange : Prop :=
  ∀ (s t : State) (n : Nat), s.Inv → s.cfg.wordBits = some n → s.mem.size + 4 ≤ 2 ^ (n - 1) →
    inRange s.cfg s.pc = true → engineStep s = .next t → inRange t.cfg t.pc = true

/-- Two memories in canonical form that have the same size and read the same at every address are the same data (the
model's representation, log entry 1). -/
def Obligations.EqualReadsAreEqualMemories : Prop :=
  ∀ m m' : Memory, m.wf = true → m'.wf = true → m.size = m'.size → (∀ a, m.get a = m'.get a) → m = m'

/-! ### Turns -/

/-- Which turn comes next and what is left once it is taken: the first of the listed turns; the engine's forever when none
is listed and the host is quiet; and otherwise the turns of the next period of an unending run, which are free, and an
engine turn after them (10_state.md section 7, the spec's decisions D1 and D20; the form is the model's, log entry 5). -/
def Obligations.TurnsComeInOrder : Prop :=
  ∀ s : State,
    (∀ x rest, s.schedule = x :: rest → s.upcoming = x ∧ s.taken = { s with schedule := rest }) ∧
    (s.schedule = [] → s.future = .quiet → s.upcoming = .engine ∧ s.taken = s) ∧
    ∀ n, s.schedule = [] → s.future = .free n →
      ∃ x rest, Config.laterTurns n ++ [.engine] = x :: rest ∧ s.upcoming = x ∧
        s.taken = { s with schedule := rest, future := .free (n + 1) }

/-- The engine's turn always comes, whatever the host does, in unending runs too: from every state, after finitely many
steps that are all the host's, the next turn is the engine's, or a held push's in which the engine steps, unless the host
resets with an image that has no defined run (10_state.md section 7, fairness of the engine only, the spec's decision D1;
log entries 5, 7 and 17). -/
def Obligations.EngineTurnAlwaysComes : Prop :=
  ∀ s : State, ∃ k : Nat,
    (∀ m u, m < k → Sys2Proof.core.run m s = .next u →
      (∃ tok, u.upcoming = .push tok ∧ u.inReady = true) ∨ ∃ image, u.upcoming = .reset image) ∧
    (Sys2Proof.core.run k s = .refused .imageOutOfRange ∨
      ∃ u : State, Sys2Proof.core.run k s = .next u ∧
        (u.upcoming = .engine ∨ ∃ tok, u.upcoming = .push tok ∧ u.inReady = false))
end

