-- ==== Sys2Proof/Laws/Decode.lean ====
section
/-! SUPPORT. The laws of digits, of the decoder and of the encoder. -/

namespace Sys2Proof

@[simp] theorem modeOfDigit_modeDigit (m : Mode) : modeOfDigit (modeDigit m) = some m := by cases m <;> rfl

theorem modeDigit_lt (m : Mode) : modeDigit m < 2 := by cases m <;> decide

theorem modeOfDigit_some_iff (d : Nat) (m : Mode) : modeOfDigit d = some m ↔ d = modeDigit m := by
  unfold modeOfDigit
  by_cases h0 : d = 0
  · cases m <;> simp [h0, modeDigit]
  · by_cases h1 : d = 1 <;> cases m <;> simp [h0, h1, modeDigit]

theorem modeOfDigit_none_iff (d : Nat) : modeOfDigit d = none ↔ 2 ≤ d := by
  unfold modeOfDigit
  by_cases h0 : d = 0
  · simp [h0]
  · by_cases h1 : d = 1
    · simp [h1]
    · simp only [h0, h1, if_false, true_iff]
      omega

@[simp] theorem decode_nat (w : Nat) : decode (.val (w : Int)) = decodeWord w := by
  simp [decode]

/-- The opcode field of a word of one or two opcode digits is its opcode. -/
theorem opcodeField_wordOf {op : Nat} (h : op < 100) (m1 m2 m3 : Nat) : opcodeField (wordOf op m1 m2 m3) = op := by
  unfold opcodeField wordOf
  omega

theorem digit2_wordOf {op m1 : Nat} (h : op < 100) (h1 : m1 < 10) (m2 m3 : Nat) :
    digit (wordOf op m1 m2 m3) 2 = m1 := by
  unfold digit wordOf
  omega

theorem digit3_wordOf {op m1 m2 : Nat} (h : op < 100) (h1 : m1 < 10) (h2 : m2 < 10) (m3 : Nat) :
    digit (wordOf op m1 m2 m3) 3 = m2 := by
  unfold digit wordOf
  omega

theorem digit4_wordOf {op m1 m2 m3 : Nat} (h : op < 100) (h1 : m1 < 10) (h2 : m2 < 10) (h3 : m3 < 10) :
    digit (wordOf op m1 m2 m3) 4 = m3 := by
  unfold digit wordOf
  omega

/-- Everything the decoder of one read operand answers. -/
theorem decodeOneRead_instr_iff (w : Nat) (f : Mode → Instr) (i : Instr) :
    decodeOneRead w f = .instr i ↔ ∃ a, digit w 2 = modeDigit a ∧ f a = i := by
  simp only [← modeOfDigit_some_iff]
  unfold decodeOneRead
  cases modeOfDigit (digit w 2) <;> simp

/-- Everything the decoder of two read operands answers. -/
theorem decodeTwoReads_instr_iff (w : Nat) (f : Mode → Mode → Instr) (i : Instr) :
    decodeTwoReads w f = .instr i ↔ ∃ a b, digit w 2 = modeDigit a ∧ digit w 3 = modeDigit b ∧ f a b = i := by
  simp only [← modeOfDigit_some_iff]
  unfold decodeTwoReads
  cases modeOfDigit (digit w 2) with
  | none => simp
  | some a => cases modeOfDigit (digit w 3) <;> simp

theorem decodeOneRead_fail_iff (w : Nat) (f : Mode → Instr) (k : FailKind) :
    decodeOneRead w f = .fail k ↔ k = .invalidOperandMode ∧ 2 ≤ digit w 2 := by
  rw [← modeOfDigit_none_iff]
  unfold decodeOneRead
  cases modeOfDigit (digit w 2) <;> simp [eq_comm]

theorem decodeTwoReads_fail_iff (w : Nat) (f : Mode → Mode → Instr) (k : FailKind) :
    decodeTwoReads w f = .fail k ↔ k = .invalidOperandMode ∧ (2 ≤ digit w 2 ∨ 2 ≤ digit w 3) := by
  rw [← modeOfDigit_none_iff, ← modeOfDigit_none_iff]
  unfold decodeTwoReads
  cases modeOfDigit (digit w 2) with
  | none => simp [eq_comm]
  | some a => cases modeOfDigit (digit w 3) <;> simp [eq_comm]

/-- Everything the decoder can answer with an instruction: the opcode field, the digits of the read operands' modes and
the instruction they make. -/
theorem decodeWord_instr_cases {w : Nat} {i : Instr} (h : decodeWord w = .instr i) :
    (∃ a b, w % 100 = 1 ∧ digit w 2 = modeDigit a ∧ digit w 3 = modeDigit b ∧ i = .add a b (digit w 4)) ∨
    (∃ a b, w % 100 = 2 ∧ digit w 2 = modeDigit a ∧ digit w 3 = modeDigit b ∧ i = .mul a b (digit w 4)) ∨
    (w % 100 = 3 ∧ i = .input (digit w 2)) ∨
    (∃ a, w % 100 = 4 ∧ digit w 2 = modeDigit a ∧ i = .output a) ∨
    (∃ a b, w % 100 = 5 ∧ digit w 2 = modeDigit a ∧ digit w 3 = modeDigit b ∧ i = .jumpIfTrue a b) ∨
    (∃ a b, w % 100 = 6 ∧ digit w 2 = modeDigit a ∧ digit w 3 = modeDigit b ∧ i = .jumpIfFalse a b) ∨
    (∃ a b, w % 100 = 7 ∧ digit w 2 = modeDigit a ∧ digit w 3 = modeDigit b ∧ i = .lessThan a b (digit w 4)) ∨
    (∃ a b, w % 100 = 8 ∧ digit w 2 = modeDigit a ∧ digit w 3 = modeDigit b ∧ i = .equals a b (digit w 4)) ∨
    (w % 100 = 99 ∧ i = .halt) := by
  unfold decodeWord opcodeField at h
  split at h <;> rename_i he
  case h_4 =>
    obtain ⟨a, h1, rfl⟩ := (decodeOneRead_instr_iff ..).1 h
    simp_all
  case h_3 | h_9 =>
    injection h with h
    simp_all
  case h_10 => simp at h
  all_goals
    obtain ⟨a, b, h1, h2, rfl⟩ := (decodeTwoReads_instr_iff ..).1 h
    simp_all

end Sys2Proof
end

