-- ==== Sys2Proof/Laws/State.lean ====
section
/-! SUPPORT. One lemma per field for each update of State: what the update writes and what it leaves alone. -/

namespace Sys2Proof.Machine

@[simp] theorem State.raise_mem (s : State) (k : FailKind) : (s.raise k).mem = s.mem := rfl
@[simp] theorem State.raise_pc (s : State) (k : FailKind) : (s.raise k).pc = s.pc := rfl
@[simp] theorem State.raise_status (s : State) (k : FailKind) : (s.raise k).status = .failed k := rfl
@[simp] theorem State.raise_inQ (s : State) (k : FailKind) : (s.raise k).inQ = s.inQ := rfl
@[simp] theorem State.raise_out (s : State) (k : FailKind) : (s.raise k).out = s.out := rfl
@[simp] theorem State.raise_cfg (s : State) (k : FailKind) : (s.raise k).cfg = s.cfg := rfl
@[simp] theorem State.raise_schedule (s : State) (k : FailKind) : (s.raise k).schedule = s.schedule := rfl
@[simp] theorem State.raise_future (s : State) (k : FailKind) : (s.raise k).future = s.future := rfl
@[simp] theorem State.raise_fresh (s : State) (k : FailKind) : (s.raise k).fresh = s.fresh := rfl

@[simp] theorem State.halt_mem (s : State) : s.halt.mem = s.mem := rfl
@[simp] theorem State.halt_pc (s : State) : s.halt.pc = s.pc := rfl
@[simp] theorem State.halt_status (s : State) : s.halt.status = .halted := rfl
@[simp] theorem State.halt_inQ (s : State) : s.halt.inQ = s.inQ := rfl
@[simp] theorem State.halt_out (s : State) : s.halt.out = s.out := rfl
@[simp] theorem State.halt_cfg (s : State) : s.halt.cfg = s.cfg := rfl
@[simp] theorem State.halt_schedule (s : State) : s.halt.schedule = s.schedule := rfl
@[simp] theorem State.halt_future (s : State) : s.halt.future = s.future := rfl
@[simp] theorem State.halt_fresh (s : State) : s.halt.fresh = s.fresh := rfl

@[simp] theorem State.sequence_mem (s : State) (n : Nat) (g : Option Int) : (s.sequence n g).mem = s.mem := rfl
@[simp] theorem State.sequence_pc (s : State) (n : Nat) (g : Option Int) : (s.sequence n g).pc = g.getD (s.pc + n) := rfl
@[simp] theorem State.sequence_status (s : State) (n : Nat) (g : Option Int) : (s.sequence n g).status = s.status := rfl
@[simp] theorem State.sequence_inQ (s : State) (n : Nat) (g : Option Int) : (s.sequence n g).inQ = s.inQ := rfl
@[simp] theorem State.sequence_out (s : State) (n : Nat) (g : Option Int) : (s.sequence n g).out = s.out := rfl
@[simp] theorem State.sequence_cfg (s : State) (n : Nat) (g : Option Int) : (s.sequence n g).cfg = s.cfg := rfl
@[simp] theorem State.sequence_schedule (s : State) (n : Nat) (g : Option Int) : (s.sequence n g).schedule = s.schedule := rfl
@[simp] theorem State.sequence_future (s : State) (n : Nat) (g : Option Int) : (s.sequence n g).future = s.future := rfl
@[simp] theorem State.sequence_fresh (s : State) (n : Nat) (g : Option Int) : (s.sequence n g).fresh = s.fresh := rfl

@[simp] theorem State.store_mem (s : State) (d : Nat) (c : Cell) : (s.store d c).mem = s.mem.set d c := rfl
@[simp] theorem State.store_pc (s : State) (d : Nat) (c : Cell) : (s.store d c).pc = s.pc := rfl
@[simp] theorem State.store_status (s : State) (d : Nat) (c : Cell) : (s.store d c).status = s.status := rfl
@[simp] theorem State.store_inQ (s : State) (d : Nat) (c : Cell) : (s.store d c).inQ = s.inQ := rfl
@[simp] theorem State.store_out (s : State) (d : Nat) (c : Cell) : (s.store d c).out = s.out := rfl
@[simp] theorem State.store_cfg (s : State) (d : Nat) (c : Cell) : (s.store d c).cfg = s.cfg := rfl
@[simp] theorem State.store_schedule (s : State) (d : Nat) (c : Cell) : (s.store d c).schedule = s.schedule := rfl
@[simp] theorem State.store_future (s : State) (d : Nat) (c : Cell) : (s.store d c).future = s.future := rfl
@[simp] theorem State.store_fresh (s : State) (d : Nat) (c : Cell) : (s.store d c).fresh = s.fresh := rfl

@[simp] theorem State.emit_mem (s : State) (v : Int) : (s.emit v).mem = s.mem := rfl
@[simp] theorem State.emit_pc (s : State) (v : Int) : (s.emit v).pc = s.pc := rfl
@[simp] theorem State.emit_status (s : State) (v : Int) : (s.emit v).status = s.status := rfl
@[simp] theorem State.emit_inQ (s : State) (v : Int) : (s.emit v).inQ = s.inQ := rfl
@[simp] theorem State.emit_out (s : State) (v : Int) : (s.emit v).out = s.out ++ [v] := rfl
@[simp] theorem State.emit_cfg (s : State) (v : Int) : (s.emit v).cfg = s.cfg := rfl
@[simp] theorem State.emit_schedule (s : State) (v : Int) : (s.emit v).schedule = s.schedule := rfl
@[simp] theorem State.emit_future (s : State) (v : Int) : (s.emit v).future = s.future := rfl
@[simp] theorem State.emit_fresh (s : State) (v : Int) : (s.emit v).fresh = s.fresh := rfl

@[simp] theorem State.withQueue_mem (s : State) (q : List Token) : (s.withQueue q).mem = s.mem := rfl
@[simp] theorem State.withQueue_pc (s : State) (q : List Token) : (s.withQueue q).pc = s.pc := rfl
@[simp] theorem State.withQueue_status (s : State) (q : List Token) : (s.withQueue q).status = s.status := rfl
@[simp] theorem State.withQueue_inQ (s : State) (q : List Token) : (s.withQueue q).inQ = q := rfl
@[simp] theorem State.withQueue_out (s : State) (q : List Token) : (s.withQueue q).out = s.out := rfl
@[simp] theorem State.withQueue_cfg (s : State) (q : List Token) : (s.withQueue q).cfg = s.cfg := rfl
@[simp] theorem State.withQueue_schedule (s : State) (q : List Token) : (s.withQueue q).schedule = s.schedule := rfl
@[simp] theorem State.withQueue_future (s : State) (q : List Token) : (s.withQueue q).future = s.future := rfl
@[simp] theorem State.withQueue_fresh (s : State) (q : List Token) : (s.withQueue q).fresh = s.fresh := rfl

@[simp] theorem State.pushToken_mem (s : State) (t : Token) : (s.pushToken t).mem = s.mem := rfl
@[simp] theorem State.pushToken_pc (s : State) (t : Token) : (s.pushToken t).pc = s.pc := rfl
@[simp] theorem State.pushToken_status (s : State) (t : Token) : (s.pushToken t).status = s.status := rfl
@[simp] theorem State.pushToken_inQ (s : State) (t : Token) : (s.pushToken t).inQ = s.inQ ++ [t] := rfl
@[simp] theorem State.pushToken_out (s : State) (t : Token) : (s.pushToken t).out = s.out := rfl
@[simp] theorem State.pushToken_cfg (s : State) (t : Token) : (s.pushToken t).cfg = s.cfg := rfl
@[simp] theorem State.pushToken_schedule (s : State) (t : Token) : (s.pushToken t).schedule = s.schedule := rfl
@[simp] theorem State.pushToken_future (s : State) (t : Token) : (s.pushToken t).future = s.future := rfl
@[simp] theorem State.pushToken_fresh (s : State) (t : Token) : (s.pushToken t).fresh = s.fresh := rfl

@[simp] theorem State.restart_mem (s : State) (p : List Int) : (s.restart p).mem = Memory.load p := rfl
@[simp] theorem State.restart_pc (s : State) (p : List Int) : (s.restart p).pc = 0 := rfl
@[simp] theorem State.restart_status (s : State) (p : List Int) : (s.restart p).status = .running := rfl
@[simp] theorem State.restart_inQ (s : State) (p : List Int) : (s.restart p).inQ = s.inQ := rfl
@[simp] theorem State.restart_out (s : State) (p : List Int) : (s.restart p).out = [] := rfl
@[simp] theorem State.restart_cfg (s : State) (p : List Int) : (s.restart p).cfg = s.cfg := rfl
@[simp] theorem State.restart_schedule (s : State) (p : List Int) : (s.restart p).schedule = s.schedule := rfl
@[simp] theorem State.restart_future (s : State) (p : List Int) : (s.restart p).future = s.future := rfl
@[simp] theorem State.restart_fresh (s : State) (p : List Int) : (s.restart p).fresh = true := rfl

@[simp] theorem State.withSchedule_mem (s : State) (r : List Turn) : (s.withSchedule r).mem = s.mem := rfl
@[simp] theorem State.withSchedule_pc (s : State) (r : List Turn) : (s.withSchedule r).pc = s.pc := rfl
@[simp] theorem State.withSchedule_status (s : State) (r : List Turn) : (s.withSchedule r).status = s.status := rfl
@[simp] theorem State.withSchedule_inQ (s : State) (r : List Turn) : (s.withSchedule r).inQ = s.inQ := rfl
@[simp] theorem State.withSchedule_out (s : State) (r : List Turn) : (s.withSchedule r).out = s.out := rfl
@[simp] theorem State.withSchedule_cfg (s : State) (r : List Turn) : (s.withSchedule r).cfg = s.cfg := rfl
@[simp] theorem State.withSchedule_schedule (s : State) (r : List Turn) : (s.withSchedule r).schedule = r := rfl
@[simp] theorem State.withSchedule_future (s : State) (r : List Turn) : (s.withSchedule r).future = s.future := rfl
@[simp] theorem State.withSchedule_fresh (s : State) (r : List Turn) : (s.withSchedule r).fresh = s.fresh := rfl

@[simp] theorem State.started_mem (s : State) : s.started.mem = s.mem := rfl
@[simp] theorem State.started_pc (s : State) : s.started.pc = s.pc := rfl
@[simp] theorem State.started_status (s : State) : s.started.status = s.status := rfl
@[simp] theorem State.started_inQ (s : State) : s.started.inQ = s.inQ := rfl
@[simp] theorem State.started_out (s : State) : s.started.out = s.out := rfl
@[simp] theorem State.started_cfg (s : State) : s.started.cfg = s.cfg := rfl
@[simp] theorem State.started_schedule (s : State) : s.started.schedule = s.schedule := rfl
@[simp] theorem State.started_future (s : State) : s.started.future = s.future := rfl
@[simp] theorem State.started_fresh (s : State) : s.started.fresh = false := rfl

/-- Listing the next turn changes nothing but the turns to come. -/
theorem State.refill_eq (s : State) : ∃ r f, s.refill = { s with schedule := r, future := f } := by
  unfold State.refill
  split
  · exact ⟨_, _, rfl⟩
  · exact ⟨s.schedule, s.future, rfl⟩

@[simp] theorem State.refill_mem (s : State) : s.refill.mem = s.mem := by
  obtain ⟨r, f, h⟩ := s.refill_eq
  rw [h]
@[simp] theorem State.refill_pc (s : State) : s.refill.pc = s.pc := by
  obtain ⟨r, f, h⟩ := s.refill_eq
  rw [h]
@[simp] theorem State.refill_status (s : State) : s.refill.status = s.status := by
  obtain ⟨r, f, h⟩ := s.refill_eq
  rw [h]
@[simp] theorem State.refill_inQ (s : State) : s.refill.inQ = s.inQ := by
  obtain ⟨r, f, h⟩ := s.refill_eq
  rw [h]
@[simp] theorem State.refill_out (s : State) : s.refill.out = s.out := by
  obtain ⟨r, f, h⟩ := s.refill_eq
  rw [h]
@[simp] theorem State.refill_cfg (s : State) : s.refill.cfg = s.cfg := by
  obtain ⟨r, f, h⟩ := s.refill_eq
  rw [h]
@[simp] theorem State.refill_fresh (s : State) : s.refill.fresh = s.fresh := by
  obtain ⟨r, f, h⟩ := s.refill_eq
  rw [h]

@[simp] theorem State.taken_mem (s : State) : s.taken.mem = s.mem := s.refill_mem
@[simp] theorem State.taken_pc (s : State) : s.taken.pc = s.pc := s.refill_pc
@[simp] theorem State.taken_status (s : State) : s.taken.status = s.status := s.refill_status
@[simp] theorem State.taken_inQ (s : State) : s.taken.inQ = s.inQ := s.refill_inQ
@[simp] theorem State.taken_out (s : State) : s.taken.out = s.out := s.refill_out
@[simp] theorem State.taken_cfg (s : State) : s.taken.cfg = s.cfg := s.refill_cfg
@[simp] theorem State.taken_fresh (s : State) : s.taken.fresh = s.fresh := s.refill_fresh

theorem State.refill_of_listed {s : State} {x : Turn} {rest : List Turn} (h : s.schedule = x :: rest) : s.refill = s := by
  unfold State.refill
  rw [h]

theorem State.refill_of_quiet {s : State} (h : s.future = .quiet) : s.refill = s := by
  unfold State.refill
  rw [h]
  split <;> simp_all

theorem State.refill_of_free {s : State} {n : Nat} (h : s.schedule = []) (hf : s.future = .free n) :
    s.refill = { s with schedule := Config.laterTurns n ++ [.engine], future := .free (n + 1) } := by
  unfold State.refill
  rw [h, hf]

theorem State.upcoming_of_listed {s : State} {x : Turn} {rest : List Turn} (h : s.schedule = x :: rest) :
    s.upcoming = x ∧ s.taken = s.withSchedule rest := by
  simp [State.upcoming, State.taken, State.refill_of_listed h, h]

theorem State.upcoming_of_quiet {s : State} (h : s.schedule = []) (hf : s.future = .quiet) :
    s.upcoming = .engine ∧ s.taken = s := by
  refine ⟨by simp [State.upcoming, State.refill_of_quiet hf, h], ?_⟩
  unfold State.taken
  rw [State.refill_of_quiet hf, h]
  cases s
  simp_all [State.withSchedule]

/-- A turn of the host is a listed one once the next turn is listed. -/
theorem State.refill_schedule_of_host {s : State} (h : s.upcoming ≠ .engine) :
    s.refill.schedule = s.upcoming :: s.taken.schedule := by
  unfold State.upcoming at h ⊢
  cases hs : s.refill.schedule with
  | nil => simp [hs] at h
  | cons x r => simp [State.taken, hs]

end Sys2Proof.Machine
end

