-- ==== Sys2Proof/Laws/Memory.lean ====
section
/-! SUPPORT. The laws of memory: read after write, the loaded image, the canonical form. -/

namespace Sys2Proof.Machine

theorem Memory.lookup_filter_ne (l : List (Nat × Cell)) {a x : Nat} (h : x ≠ a) :
    (l.filter fun e => decide (e.1 ≠ a)).lookup x = l.lookup x := by
  induction l with
  | nil => rfl
  | cons e l ih =>
    obtain ⟨k, c⟩ := e
    by_cases hk : k = a
    · subst hk
      have hx : (x == k) = false := by simpa using h
      simp [List.lookup, hx] at ih ⊢
      exact ih
    · simp only [ne_eq, decide_not] at ih
      simp [hk, List.lookup, ih]

theorem Memory.lookup_filter_self (l : List (Nat × Cell)) (a : Nat) :
    (l.filter fun e => decide (e.1 ≠ a)).lookup a = none := by
  induction l with
  | nil => rfl
  | cons e l ih =>
    obtain ⟨k, c⟩ := e
    by_cases hk : k = a
    · simpa [hk] using ih
    · have hx : (a == k) = false := by simpa using Ne.symm hk
      simp only [ne_eq, decide_not] at ih
      simp [hk, List.lookup, hx, ih]

theorem Memory.lookup_place (k : Nat) (c : Cell) (l : List (Nat × Cell)) (x : Nat) (h : l.lookup k = none) :
    (Memory.place (k, c) l).lookup x = if x = k then some c else l.lookup x := by
  induction l with
  | nil =>
    by_cases hx : x = k
    · simp [Memory.place, hx]
    · have : (x == k) = false := by simpa using hx
      simp [Memory.place, List.lookup, hx, this]
  | cons y l ih =>
    obtain ⟨k', c'⟩ := y
    have hne : k ≠ k' := by
      rintro rfl
      simp [List.lookup] at h
    have hl : l.lookup k = none := by
      have : (k == k') = false := by simpa using hne
      simpa [List.lookup, this] using h
    by_cases hlt : k < k'
    · by_cases hx : x = k
      · simp [Memory.place, hlt, hx]
      · have : (x == k) = false := by simpa using hx
        simp [Memory.place, hlt, hx, List.lookup, this]
    · by_cases hx : x = k'
      · subst hx
        simp [Memory.place, hlt, List.lookup, Ne.symm hne]
      · have : (x == k') = false := by simpa using hx
        simpa [Memory.place, hlt, List.lookup, this] using ih hl

@[simp] theorem Memory.size_set (m : Memory) (a : Nat) (c : Cell) : (m.set a c).size = m.size := rfl

/-- Read after write, at every address of every memory, canonical or not. -/
theorem Memory.get_set (m : Memory) (a : Nat) (c : Cell) (x : Nat) :
    (m.set a c).get x = if x = a then c else m.get x := by
  have hself := Memory.lookup_filter_self m.cells a
  by_cases hx : x = a
  · subst hx
    by_cases hc : c = Memory.blank
    · simp only [Memory.get, Memory.set, if_pos hc, hself]
      simp [hc]
    · simp only [Memory.get, Memory.set, if_neg hc, Memory.lookup_place _ _ _ _ hself, if_pos, Option.getD_some]
  · by_cases hc : c = Memory.blank
    · simp only [Memory.get, Memory.set, if_pos hc, Memory.lookup_filter_ne _ hx, if_neg hx]
    · simp only [Memory.get, Memory.set, if_neg hc, Memory.lookup_place _ _ _ _ hself, if_neg hx,
        Memory.lookup_filter_ne _ hx]

@[simp] theorem Memory.get_set_self (m : Memory) (a : Nat) (c : Cell) : (m.set a c).get a = c := by
  simp [Memory.get_set]

theorem Memory.get_set_ne (m : Memory) {a x : Nat} (c : Cell) (h : x ≠ a) : (m.set a c).get x = m.get x := by
  simp [Memory.get_set, h]

theorem Memory.sameOutside_set (m : Memory) (d : Nat) (c : Cell) : Memory.SameOutside d m (m.set d c) :=
  ⟨rfl, fun _ h => m.get_set_ne c h⟩

@[simp] theorem Memory.inBounds_set (m : Memory) (a : Nat) (c : Cell) (x : Int) :
    (m.set a c).inBounds x = m.inBounds x := rfl

theorem Memory.inBounds_iff (m : Memory) (a : Int) : m.inBounds a = true ↔ 0 ≤ a ∧ a < m.size := by
  simp [Memory.inBounds]

theorem Memory.toNat_lt {m : Memory} {a : Int} (h : m.inBounds a = true) : a.toNat < m.size := by
  have := (m.inBounds_iff a).1 h
  omega

theorem Memory.wf_iff (m : Memory) :
    m.wf = true ↔ (m.cells.Pairwise fun x y => x.1 < y.1) ∧ ∀ e ∈ m.cells, e.1 < m.size ∧ e.2 ≠ Memory.blank := by
  simp [Memory.wf]

theorem Memory.mem_place {e y : Nat × Cell} {l : List (Nat × Cell)} (h : y ∈ Memory.place e l) : y = e ∨ y ∈ l := by
  induction l with
  | nil => simpa [Memory.place] using h
  | cons x l ih =>
    by_cases hlt : e.1 < x.1
    · simpa [Memory.place, hlt] using h
    · simp only [Memory.place, if_neg hlt, List.mem_cons] at h ⊢
      rcases h with h | h
      · exact .inr (.inl h)
      · exact (ih h).imp id .inr

theorem Memory.pairwise_place {e : Nat × Cell} {l : List (Nat × Cell)} (hl : l.Pairwise fun x y => x.1 < y.1)
    (hne : ∀ y ∈ l, y.1 ≠ e.1) : (Memory.place e l).Pairwise fun x y => x.1 < y.1 := by
  induction l with
  | nil => simp [Memory.place]
  | cons x l ih =>
    rw [List.pairwise_cons] at hl
    have hx := hne x (List.mem_cons_self ..)
    by_cases hlt : e.1 < x.1
    · simp only [Memory.place, if_pos hlt, List.pairwise_cons]
      refine ⟨fun y hy => ?_, hl⟩
      rcases List.mem_cons.1 hy with rfl | hy
      · exact hlt
      · exact lt_trans hlt (hl.1 y hy)
    · simp only [Memory.place, if_neg hlt, List.pairwise_cons]
      refine ⟨fun y hy => ?_, ih hl.2 fun y hy => hne y (List.mem_cons_of_mem _ hy)⟩
      rcases Memory.mem_place hy with rfl | hy
      · omega
      · exact hl.1 y hy

/-- A write inside memory keeps the canonical form. -/
theorem Memory.wf_set {m : Memory} {a : Nat} (c : Cell) (h : m.wf = true) (ha : a < m.size) :
    (m.set a c).wf = true := by
  rw [Memory.wf_iff] at h ⊢
  have hp := h.1.filter fun e => decide (e.1 ≠ a)
  by_cases hc : c = Memory.blank
  · simp only [Memory.set, if_pos hc]
    exact ⟨hp, fun e he => h.2 e (List.mem_filter.1 he).1⟩
  · simp only [Memory.set, if_neg hc]
    refine ⟨Memory.pairwise_place hp fun y hy => by simpa using (List.mem_filter.1 hy).2, fun e he => ?_⟩
    rcases Memory.mem_place he with rfl | he
    · exact ⟨ha, hc⟩
    · exact h.2 e (List.mem_filter.1 he).1

theorem Memory.entriesFrom_bounds (vs : List Int) (a : Nat) :
    ∀ e ∈ Memory.entriesFrom a vs, a ≤ e.1 ∧ e.1 < a + vs.length ∧ e.2 ≠ Memory.blank := by
  induction vs generalizing a with
  | nil => simp [Memory.entriesFrom]
  | cons v vs ih =>
    intro e he
    have step : e ∈ Memory.entriesFrom (a + 1) vs → a ≤ e.1 ∧ e.1 < a + (v :: vs).length ∧ e.2 ≠ Memory.blank := by
      intro h
      have := ih (a + 1) e h
      refine ⟨by omega, by simp only [List.length_cons]; omega, this.2.2⟩
    by_cases hv : Cell.val v = Memory.blank
    · rw [Memory.entriesFrom, if_pos hv] at he
      exact step he
    · rw [Memory.entriesFrom, if_neg hv, List.mem_cons] at he
      rcases he with rfl | he
      · exact ⟨le_rfl, by simp, hv⟩
      · exact step he

theorem Memory.pairwise_entriesFrom (vs : List Int) (a : Nat) :
    (Memory.entriesFrom a vs).Pairwise fun x y => x.1 < y.1 := by
  induction vs generalizing a with
  | nil => simp [Memory.entriesFrom]
  | cons v vs ih =>
    by_cases hv : Cell.val v = Memory.blank
    · rw [Memory.entriesFrom, if_pos hv]
      exact ih (a + 1)
    · rw [Memory.entriesFrom, if_neg hv, List.pairwise_cons]
      refine ⟨fun y hy => ?_, ih (a + 1)⟩
      have := Memory.entriesFrom_bounds vs (a + 1) y hy
      show a < y.1
      omega

@[simp] theorem Memory.size_load (image : List Int) : (Memory.load image).size = image.length := rfl

/-- A loaded image is in canonical form. -/
theorem Memory.wf_load (image : List Int) : (Memory.load image).wf = true := by
  rw [Memory.wf_iff]
  refine ⟨Memory.pairwise_entriesFrom image 0, fun e he => ?_⟩
  have := Memory.entriesFrom_bounds image 0 e he
  exact ⟨by simpa using this.2.1, this.2.2⟩

theorem Memory.lookup_entriesFrom (vs : List Int) (a x : Nat) :
    ((Memory.entriesFrom a vs).lookup (a + x)).getD Memory.blank = ((vs[x]?).map Cell.val).getD Memory.blank := by
  induction vs generalizing a x with
  | nil => simp [Memory.entriesFrom]
  | cons v vs ih =>
    have miss : (Memory.entriesFrom (a + 1) vs).lookup a = none := by
      rw [List.lookup_eq_none_iff]
      intro e he
      have := Memory.entriesFrom_bounds vs (a + 1) e he
      simp only [bne_iff_ne, ne_eq]
      omega
    cases x with
    | zero =>
      by_cases hv : Cell.val v = Memory.blank
      · simp [Memory.entriesFrom, hv, miss]
      · simp [Memory.entriesFrom, hv]
    | succ x =>
      have hx : (a + (x + 1) == a) = false := by simp
      have e : a + (x + 1) = a + 1 + x := by omega
      by_cases hv : Cell.val v = Memory.blank
      · simpa [Memory.entriesFrom, hv, e] using ih (a + 1) x
      · rw [Memory.entriesFrom, if_neg hv, List.lookup, hx]
        simpa [e] using ih (a + 1) x

/-- Cell x of a loaded image holds the image's x-th integer. -/
theorem Memory.get_load (image : List Int) (x : Nat) :
    (Memory.load image).get x = ((image[x]?).map Cell.val).getD Memory.blank := by
  simpa [Memory.get, Memory.load] using Memory.lookup_entriesFrom image 0 x

end Sys2Proof.Machine
end

