-- ==== Sys2Proof/Laws/Operands.lean ====
section
/-! SUPPORT. What the operand resolver and the fetch can answer. -/

namespace Sys2Proof.Machine

theorem State.loadInt_ok_iff (s : State) (a v : Int) :
    s.loadInt a = .ok v ↔ s.mem.inBounds a = true ∧ s.mem.get a.toNat = .val v := by
  unfold State.loadInt
  by_cases hb : s.mem.inBounds a = true
  · cases hc : s.mem.get a.toNat <;> simp [hb]
  · simp [hb]

theorem State.loadInt_error_iff (s : State) (a : Int) (k : FailKind) :
    s.loadInt a = .error k ↔
      (s.mem.inBounds a = false ∧ k = .outOfBounds) ∨
      (s.mem.inBounds a = true ∧ s.mem.get a.toNat = .poison ∧ k = .memoryCorrupted) := by
  unfold State.loadInt
  by_cases hb : s.mem.inBounds a = true
  · cases hc : s.mem.get a.toNat <;> simp [hb, eq_comm]
  · simp [hb, eq_comm]

/-- A load answers an integer of memory, so one in range when memory holds only such. -/
theorem State.loadInt_inRange {s : State} {a v : Int} (h : s.loadInt a = .ok v)
    (hc : ∀ a, cellInRange s.cfg (s.mem.get a) = true) : inRange s.cfg v = true := by
  have := hc a.toNat
  rwa [((s.loadInt_ok_iff a v).1 h).2] at this

theorem State.readOperand_immediate (s : State) (i : Nat) : s.readOperand i .immediate = s.loadInt (s.pc + i) := by
  unfold State.readOperand
  cases s.loadInt (s.pc + i) <;> rfl

theorem State.readOperand_position (s : State) (i : Nat) :
    s.readOperand i .position = (s.loadInt (s.pc + i)).bind s.loadInt := rfl

theorem State.readOperand_inRange {s : State} {i : Nat} {m : Mode} {v : Int} (h : s.readOperand i m = .ok v)
    (hc : ∀ a, cellInRange s.cfg (s.mem.get a) = true) : inRange s.cfg v = true := by
  cases m with
  | immediate =>
    rw [State.readOperand_immediate] at h
    exact State.loadInt_inRange h hc
  | position =>
    rw [State.readOperand_position] at h
    cases hr : s.loadInt (s.pc + i) with
    | error k => simp [hr, Except.bind] at h
    | ok raw => exact State.loadInt_inRange (by simpa [hr, Except.bind] using h) hc

theorem State.writeTarget_ok_iff (s : State) (i d : Nat) :
    s.writeTarget i = .ok d ↔
      ∃ raw, s.loadInt (s.pc + i) = .ok raw ∧ s.mem.inBounds raw = true ∧ raw.toNat = d := by
  unfold State.writeTarget
  cases s.loadInt (s.pc + i) with
  | error k => simp [bind, Except.bind]
  | ok raw =>
    by_cases hb : s.mem.inBounds raw = true <;> simp [bind, Except.bind, pure, Except.pure, hb]

/-- The destination of a write lies inside memory. -/
theorem State.writeTarget_lt {s : State} {i d : Nat} (h : s.writeTarget i = .ok d) : d < s.mem.size := by
  obtain ⟨raw, _, hb, rfl⟩ := (s.writeTarget_ok_iff i d).1 h
  exact Memory.toNat_lt hb

/-- The resolver fails with OutOfBounds or MemoryCorrupted only. -/
theorem State.loadInt_error_kind {s : State} {a : Int} {k : FailKind} (h : s.loadInt a = .error k) :
    k = .outOfBounds ∨ k = .memoryCorrupted := by
  obtain ⟨-, rfl⟩ | ⟨-, -, rfl⟩ := (s.loadInt_error_iff a k).1 h
  · exact .inl rfl
  · exact .inr rfl

theorem State.readOperand_error_kind {s : State} {i : Nat} {m : Mode} {k : FailKind}
    (h : s.readOperand i m = .error k) : k = .outOfBounds ∨ k = .memoryCorrupted := by
  cases m with
  | immediate => exact State.loadInt_error_kind (s.readOperand_immediate i ▸ h)
  | position =>
    rw [State.readOperand_position] at h
    cases hr : s.loadInt (s.pc + i) with
    | error k' =>
      simp only [hr, Except.bind, Except.error.injEq] at h
      exact State.loadInt_error_kind (h ▸ hr)
    | ok raw => exact State.loadInt_error_kind (s := s) (a := raw) (by simpa [hr, Except.bind] using h)

theorem State.writeTarget_error_kind {s : State} {i : Nat} {k : FailKind} (h : s.writeTarget i = .error k) :
    k = .outOfBounds ∨ k = .memoryCorrupted := by
  unfold State.writeTarget at h
  cases hr : s.loadInt (s.pc + i) with
  | error k' =>
    simp only [hr, bind, Except.bind, Except.error.injEq] at h
    exact State.loadInt_error_kind (h ▸ hr)
  | ok raw =>
    simp only [hr, bind, Except.bind, pure, Except.pure] at h
    split at h
    · simp at h
    · simp only [Except.error.injEq] at h
      exact .inl h.symm

theorem State.fetch_ok_iff (s : State) (c : Cell) :
    s.fetch = .ok c ↔ s.mem.inBounds s.pc = true ∧ s.mem.get s.pc.toNat = c := by
  unfold State.fetch
  by_cases hb : s.mem.inBounds s.pc = true <;> simp [hb]

theorem State.fetch_error_iff (s : State) (k : FailKind) :
    s.fetch = .error k ↔ s.mem.inBounds s.pc = false ∧ k = .outOfBounds := by
  unfold State.fetch
  by_cases hb : s.mem.inBounds s.pc = true <;> simp [hb, eq_comm]

/-- The operand resolver and the fetch look at memory and pc only. -/
theorem State.loadInt_congr {s u : State} (h : u.mem = s.mem) : u.loadInt = s.loadInt := by
  funext a
  simp only [State.loadInt, h]

theorem State.readOperand_congr {s u : State} (h : u.mem = s.mem) (hp : u.pc = s.pc) : u.readOperand = s.readOperand := by
  funext i m
  simp only [State.readOperand, State.loadInt_congr h, hp]

theorem State.writeTarget_congr {s u : State} (h : u.mem = s.mem) (hp : u.pc = s.pc) :
    u.writeTarget = s.writeTarget := by
  funext i
  simp only [State.writeTarget, State.loadInt_congr h, hp, h]

theorem State.fetch_congr {s u : State} (h : u.mem = s.mem) (hp : u.pc = s.pc) : u.fetch = s.fetch := by
  simp only [State.fetch, h, hp]

end Sys2Proof.Machine
end

