-- ==== Sys2Proof/Laws/Exec.lean ====
section
/-! SUPPORT. What an instruction, an engine step and a turn can do: one inversion lemma for each shared operation, for
exec, for engineStep and for step. -/

namespace Sys2Proof.Machine

theorem State.finish_ok (s t : State) : s.finish (.ok t) = .next t := rfl

theorem State.finish_error (s : State) (k : FailKind) : s.finish (.error k) = .next (s.raise k) := rfl

/-- Ending an instruction never faults and never refuses. -/
theorem State.finish_next (s : State) (r : Except FailKind State) : ∃ t, s.finish r = .next t := by
  cases r with
  | ok t => exact ⟨t, rfl⟩
  | error k => exact ⟨s.raise k, rfl⟩

/-- Format F4 when every operand resolves and the ALU has a result. -/
theorem State.readReadStore_ok {s : State} {a b : Mode} {alu : Int → Int → Except FailKind Int} {x y r : Int} {d : Nat}
    (i : Instr) (ha : s.readOperand 1 a = .ok x) (hb : s.readOperand 2 b = .ok y) (hd : s.writeTarget 3 = .ok d)
    (hr : alu x y = .ok r) : s.readReadStore i a b alu = .next ((s.store d (.val r)).sequence i.oplen none) := by
  simp [State.readReadStore, ha, hb, hd, hr, bind, Except.bind, pure, Except.pure, State.finish]

/-- Everything format F4 can do. -/
theorem State.readReadStore_cases {s t : State} {i : Instr} {a b : Mode} {alu : Int → Int → Except FailKind Int}
    (h : s.readReadStore i a b alu = .next t) :
    (∃ k, t = s.raise k) ∨
    ∃ x y d r, s.readOperand 1 a = .ok x ∧ s.readOperand 2 b = .ok y ∧ s.writeTarget 3 = .ok d ∧ alu x y = .ok r ∧
      t = (s.store d (.val r)).sequence i.oplen none := by
  cases ha : s.readOperand 1 a with
  | error k =>
    left
    refine ⟨k, ?_⟩
    simpa [State.readReadStore, ha, bind, Except.bind, State.finish, eq_comm] using h
  | ok x =>
    cases hb : s.readOperand 2 b with
    | error k =>
      left
      refine ⟨k, ?_⟩
      simpa [State.readReadStore, ha, hb, bind, Except.bind, State.finish, eq_comm] using h
    | ok y =>
      cases hd : s.writeTarget 3 with
      | error k =>
        left
        refine ⟨k, ?_⟩
        simpa [State.readReadStore, ha, hb, hd, bind, Except.bind, State.finish, eq_comm] using h
      | ok d =>
        cases hr : alu x y with
        | error k =>
          left
          refine ⟨k, ?_⟩
          simpa [State.readReadStore, ha, hb, hd, hr, bind, Except.bind, State.finish, eq_comm] using h
        | ok r =>
          right
          rw [State.readReadStore_ok i ha hb hd hr] at h
          injection h with h
          exact ⟨x, y, d, r, rfl, rfl, rfl, hr, h.symm⟩

/-- A jump when both operands resolve. -/
theorem State.jumpOn_ok {s : State} {a b : Mode} {t g : Int} (i : Instr) (target : Int → Int → Option Int)
    (ha : s.readOperand 1 a = .ok t) (hb : s.readOperand 2 b = .ok g) :
    s.jumpOn i a b target = .next (s.sequence i.oplen (target t g)) := by
  simp [State.jumpOn, ha, hb, bind, Except.bind, pure, Except.pure, State.finish]

/-- Everything a jump can do. -/
theorem State.jumpOn_cases {s u : State} {i : Instr} {a b : Mode} {target : Int → Int → Option Int}
    (h : s.jumpOn i a b target = .next u) :
    (∃ k, u = s.raise k) ∨
    ∃ t g, s.readOperand 1 a = .ok t ∧ s.readOperand 2 b = .ok g ∧ u = s.sequence i.oplen (target t g) := by
  cases ha : s.readOperand 1 a with
  | error k =>
    left
    refine ⟨k, ?_⟩
    simpa [State.jumpOn, ha, bind, Except.bind, State.finish, eq_comm] using h
  | ok t =>
    cases hb : s.readOperand 2 b with
    | error k =>
      left
      refine ⟨k, ?_⟩
      simpa [State.jumpOn, ha, hb, bind, Except.bind, State.finish, eq_comm] using h
    | ok g =>
      right
      rw [State.jumpOn_ok i target ha hb] at h
      injection h with h
      exact ⟨t, g, rfl, rfl, h.symm⟩

/-- An Input with its destination resolved and a token at hand. -/
theorem execInput_ok {s : State} {d : Nat} {tok : Token} {rest : List Token} (w : Nat) (hd : s.writeTarget 1 = .ok d)
    (hq : s.inQ = tok :: rest) :
    execInput w s = .next (((s.withQueue rest).store d (tokenCell s.cfg tok)).sequence 2 none) := by
  simp [execInput, hd, hq, bind, Except.bind, pure, Except.pure, State.finish, Instr.oplen]

/-- Everything an Input can do. -/
theorem execInput_cases {s t : State} {w : Nat} (h : execInput w s = .next t) :
    (∃ k, s.writeTarget 1 = .error k ∧ t = s.raise k) ∨
    (∃ d, s.writeTarget 1 = .ok d ∧ s.inQ = [] ∧ t = s) ∨
    ∃ d tok rest, s.writeTarget 1 = .ok d ∧ s.inQ = tok :: rest ∧
      t = ((s.withQueue rest).store d (tokenCell s.cfg tok)).sequence 2 none := by
  cases hd : s.writeTarget 1 with
  | error k =>
    left
    refine ⟨k, rfl, ?_⟩
    simpa [execInput, hd, bind, Except.bind, State.finish, eq_comm] using h
  | ok d =>
    cases hq : s.inQ with
    | nil =>
      right; left
      refine ⟨d, rfl, rfl, ?_⟩
      simpa [execInput, hd, hq, bind, Except.bind, pure, Except.pure, State.finish, eq_comm] using h
    | cons tok rest =>
      right; right
      rw [execInput_ok w hd hq] at h
      injection h with h
      exact ⟨d, tok, rest, rfl, rfl, h.symm⟩

/-- An Output whose operand resolves. -/
theorem execOutput_ok {s : State} {a : Mode} {v : Int} (ha : s.readOperand 1 a = .ok v) :
    execOutput a s = .next ((s.emit v).sequence 2 none) := by
  simp [execOutput, ha, bind, Except.bind, pure, Except.pure, State.finish, Instr.oplen]

/-- Everything an Output can do. -/
theorem execOutput_cases {s t : State} {a : Mode} (h : execOutput a s = .next t) :
    (∃ k, s.readOperand 1 a = .error k ∧ t = s.raise k) ∨
    ∃ v, s.readOperand 1 a = .ok v ∧ t = (s.emit v).sequence 2 none := by
  cases ha : s.readOperand 1 a with
  | error k =>
    left
    refine ⟨k, rfl, ?_⟩
    simpa [execOutput, ha, bind, Except.bind, State.finish, eq_comm] using h
  | ok v =>
    right
    rw [execOutput_ok ha] at h
    injection h with h
    exact ⟨v, rfl, h.symm⟩

theorem checkRange_ok_iff (cfg : Config) (v r : Int) : checkRange cfg v = .ok r ↔ inRange cfg v = true ∧ v = r := by
  unfold checkRange
  by_cases h : inRange cfg v = true <;> simp [h]

theorem lessThanResult_or (x y : Int) : lessThanResult x y = 0 ∨ lessThanResult x y = 1 := by
  unfold lessThanResult
  split <;> simp

theorem equalsResult_or (x y : Int) : equalsResult x y = 0 ∨ equalsResult x y = 1 := by
  unfold equalsResult
  split <;> simp

/-- Everything an instruction can do: fail, wait, store an integer, store a token's cell, emit, jump or fall through,
halt. -/
inductive Effect (s : State) (i : Instr) : State → Prop where
  | fail (k : FailKind) : Effect s i (s.raise k)
  | wait (w : Nat) (hi : i = .input w) (d : Nat) (hd : s.writeTarget 1 = .ok d) (hq : s.inQ = []) : Effect s i s
  | store (d : Nat) (hd : s.writeTarget 3 = .ok d) (r : Int) (hr : inRange s.cfg r = true ∨ r = 0 ∨ r = 1) :
      Effect s i ((s.store d (.val r)).sequence i.oplen none)
  | input (w : Nat) (hi : i = .input w) (d : Nat) (hd : s.writeTarget 1 = .ok d) (tok : Token) (rest : List Token)
      (hq : s.inQ = tok :: rest) :
      Effect s i (((s.withQueue rest).store d (tokenCell s.cfg tok)).sequence i.oplen none)
  | output (a : Mode) (hi : i = .output a) (v : Int) (hv : s.readOperand 1 a = .ok v) :
      Effect s i ((s.emit v).sequence i.oplen none)
  | jump (b : Mode) (g : Int) (hg : s.readOperand 2 b = .ok g) : Effect s i (s.sequence i.oplen (some g))
  | fallThrough : Effect s i (s.sequence i.oplen none)
  | halt (hi : i = .halt) : Effect s i s.halt

theorem exec_effect {s t : State} {i : Instr} (h : exec i s = .next t) : Effect s i t := by
  have arith : ∀ (op : Int → Int → Int) (j : Instr) (a b : Mode),
      s.readReadStore j a b (fun x y => checkRange s.cfg (op x y)) = .next t → Effect s j t := by
    intro op j a b h
    obtain ⟨k, rfl⟩ | ⟨x, y, d, r, -, -, hd, hr, rfl⟩ := State.readReadStore_cases h
    · exact .fail k
    · obtain ⟨hin, rfl⟩ := (checkRange_ok_iff _ _ _).1 hr
      exact .store d hd _ (.inl hin)
  cases i with
  | add a b w => exact arith (· + ·) _ a b h
  | mul a b w => exact arith (· * ·) _ a b h
  | input w =>
    obtain ⟨k, -, rfl⟩ | ⟨d, hd, hq, rfl⟩ | ⟨d, tok, rest, hd, hq, rfl⟩ := execInput_cases h
    · exact .fail k
    · exact .wait w rfl d hd hq
    · exact .input w rfl d hd tok rest hq
  | output a =>
    obtain ⟨k, -, rfl⟩ | ⟨v, hv, rfl⟩ := execOutput_cases h
    · exact .fail k
    · exact .output a rfl v hv
  | jumpIfTrue a b =>
    obtain ⟨k, rfl⟩ | ⟨t, g, -, hg, rfl⟩ := State.jumpOn_cases h
    · exact .fail k
    · by_cases ht : t = 0
      · simpa [jumpIfTrueTarget, ht] using Effect.fallThrough
      · simpa [jumpIfTrueTarget, ht] using Effect.jump b g hg
  | jumpIfFalse a b =>
    obtain ⟨k, rfl⟩ | ⟨t, g, -, hg, rfl⟩ := State.jumpOn_cases h
    · exact .fail k
    · by_cases ht : t = 0
      · simpa [jumpIfFalseTarget, ht] using Effect.jump b g hg
      · simpa [jumpIfFalseTarget, ht] using Effect.fallThrough
  | lessThan a b w =>
    obtain ⟨k, rfl⟩ | ⟨x, y, d, r, -, -, hd, hr, rfl⟩ := State.readReadStore_cases h
    · exact .fail k
    · injection hr with hr
      exact .store d hd r (.inr (hr ▸ lessThanResult_or x y))
  | equals a b w =>
    obtain ⟨k, rfl⟩ | ⟨x, y, d, r, -, -, hd, hr, rfl⟩ := State.readReadStore_cases h
    · exact .fail k
    · injection hr with hr
      exact .store d hd r (.inr (hr ▸ equalsResult_or x y))
  | halt =>
    injection h with h
    exact h ▸ .halt rfl

/-- Everything an engine step can do. -/
theorem engineStep_cases {s t : State} (h : engineStep s = .next t) :
    (s.status ≠ .running ∧ t = s) ∨
    (s.status = .running ∧ s.fetch = .error .outOfBounds ∧ t = s.raise .outOfBounds) ∨
    (∃ c k, s.status = .running ∧ s.fetch = .ok c ∧ decode c = .fail k ∧ t = s.raise k) ∨
    ∃ c i, s.status = .running ∧ s.fetch = .ok c ∧ decode c = .instr i ∧ exec i s = .next t := by
  unfold engineStep at h
  cases hs : s.status with
  | halted => exact .inl ⟨by simp, by simpa [hs, eq_comm] using h⟩
  | failed k => exact .inl ⟨by simp, by simpa [hs, eq_comm] using h⟩
  | running =>
    right
    simp only [hs] at h
    cases hf : s.fetch with
    | error k =>
      left
      obtain rfl := ((s.fetch_error_iff k).1 hf).2
      exact ⟨rfl, rfl, by simpa [hf, eq_comm] using h⟩
    | ok c =>
      right
      simp only [hf] at h
      cases hd : decode c with
      | fail k => exact .inl ⟨c, k, rfl, rfl, hd, by simpa [hd, eq_comm] using h⟩
      | instr i => exact .inr ⟨c, i, rfl, rfl, hd, by simpa [hd] using h⟩

/-- Everything a turn can do: the engine steps, at its turn or while a push is held, or the host pushes or resets. -/
theorem step_cases {s t : State} (h : step s = .next t) :
    (s.upcoming = .engine ∧ engineStep s.taken.started = .next t) ∨
    (∃ tok, s.upcoming = .push tok ∧ s.inReady = true ∧ t = s.taken.pushToken tok) ∨
    (∃ tok, s.upcoming = .push tok ∧ s.inReady = false ∧ engineStep s.refill.started = .next t) ∨
    ∃ image, s.upcoming = .reset image ∧ image.all (inRange s.cfg) = true ∧ t = s.taken.restart image := by
  unfold step takeTurn at h
  cases hs : s.upcoming with
  | engine => exact .inl ⟨rfl, by simpa only [hs] using h⟩
  | push tok =>
    right
    by_cases hr : s.inReady = true
    · exact .inl ⟨tok, rfl, hr, by simpa only [hs, hr, if_true, Host.Outcome.next.injEq, eq_comm] using h⟩
    · exact .inr (.inl ⟨tok, rfl, by simpa using hr, by simpa [hs, hr] using h⟩)
  | reset image =>
    right; right; right
    by_cases hr : image.all (inRange s.cfg) = true
    · exact ⟨image, rfl, hr, by simpa only [hs, hr, if_true, Host.Outcome.next.injEq, eq_comm] using h⟩
    · simp only [hs, hr] at h
      simp at h

/-- The state an engine turn starts from: the state before the turn but for the turns to come and `fresh`. -/
theorem step_engine_start {s t : State}
    (h : (s.upcoming = .engine ∧ engineStep s.taken.started = .next t) ∨
      ∃ tok, s.upcoming = .push tok ∧ s.inReady = false ∧ engineStep s.refill.started = .next t) :
    ∃ r f, engineStep { s with schedule := r, future := f, fresh := false } = .next t := by
  obtain ⟨r, f, e⟩ := s.refill_eq
  obtain ⟨-, h⟩ | ⟨-, -, -, h⟩ := h
  · exact ⟨s.refill.schedule.tail, f, by simpa [State.taken, State.withSchedule, State.started, e] using h⟩
  · exact ⟨r, f, by simpa [State.started, e] using h⟩

/-- The condition of 10_state.md R25 as a proposition. -/
theorem State.inputFindsNoToken_iff (s : State) :
    s.inputFindsNoToken = true ↔ s.status = .running ∧ s.inQ = [] ∧
      ∃ c w d, s.fetch = .ok c ∧ decode c = .instr (.input w) ∧ s.writeTarget 1 = .ok d := by
  constructor
  · intro h
    unfold State.inputFindsNoToken at h
    split at h
    · rename_i c hs hf
      split at h
      · rename_i w hd
        cases hw : s.writeTarget 1 with
        | error k => simp [hw] at h
        | ok d => exact ⟨hs, by simpa [hw] using h, c, w, d, hf, hd, rfl⟩
      · simp at h
    · simp at h
  · rintro ⟨hs, hq, c, w, d, hf, hd, hw⟩
    simp [State.inputFindsNoToken, hs, hf, hd, hw, hq]

theorem State.awaiting_iff (s : State) :
    s.awaiting = true ↔ s.inputFindsNoToken = true ∧ (s.cfg.waitsFromReset = true ∨ s.fresh = false) := by
  simp [State.awaiting]

/-- Where the parameter follows 10_state.md R25, awaiting input is its condition in every state. -/
theorem State.awaiting_of_waitsFromReset {s : State} (h : s.cfg.waitsFromReset = true) :
    s.awaiting = s.inputFindsNoToken := by
  simp [State.awaiting, h]

theorem State.waitingPort_eq_one_iff (s : State) : s.waitingPort = 1 ↔ s.awaiting = true := by
  simp [State.waitingPort]

/-- The next fetch of a state made by `withFetchWord` reads the word. -/
theorem State.withFetchWord_fetch (s : State) (n w : Nat) : (s.withFetchWord n w).fetch = .ok (.val (w : Int)) := by
  rw [State.fetch_ok_iff]
  refine ⟨?_, ?_⟩
  · simp only [State.withFetchWord, Memory.inBounds_set]
    rw [Memory.inBounds_iff]
    simp only
    omega
  · have hpc : (s.withFetchWord n w).pc.toNat = s.pc.toNat := Int.toNat_natCast _
    rw [hpc]
    simp [State.withFetchWord, Memory.get_set]

/-- The next step of a state made by `withFetchWord` runs the instruction of the word. -/
theorem step_withFetchWord {s : State} {n w : Nat} {i : Instr} (h : decode (.val (w : Int)) = .instr i) :
    step (s.withFetchWord n w) = exec i (s.withFetchWord n w) := by
  have hf := s.withFetchWord_fetch n w
  have e : engineStep (s.withFetchWord n w) = exec i (s.withFetchWord n w) := by
    unfold engineStep
    rw [hf]
    simp only [show (s.withFetchWord n w).status = .running from rfl, h]
  unfold step takeTurn
  obtain ⟨hu, ht⟩ := State.upcoming_of_quiet (s := s.withFetchWord n w) rfl rfl
  rw [hu, ht]
  exact e

/-- Every cell is in range when every listed one and the blank cell are. -/
theorem Memory.get_inRange {m : Memory} {cfg : Config} (h : ∀ e ∈ m.cells, cellInRange cfg e.2 = true)
    (hb : cellInRange cfg Memory.blank = true) (a : Nat) : cellInRange cfg (m.get a) = true := by
  unfold Memory.get
  cases hl : m.cells.lookup a with
  | none => exact hb
  | some c =>
    obtain ⟨l₁, l₂, e, -⟩ := List.lookup_eq_some_iff.1 hl
    exact h (a, c) (by simp [e])

end Sys2Proof.Machine
end

