-- ==== Sys2Proof/Laws/PerInstr.lean ====
section
/-! SUPPORT. The family OpcodeField: every well-formed instruction is encoded in at most five decimal digits, the last
two of them its opcode (30_encoding.md R71, R73). -/

namespace Sys2Proof.Laws

def OpcodeField.Statement (i : Instr) : Prop :=
  i.wellFormed = true → opcodeField (encode i) = i.opcode ∧ encode i < 100000

theorem OpcodeField.of_wordOf {op m1 m2 m3 : Nat} (h : op < 100) (h1 : m1 < 10) (h2 : m2 < 10) (h3 : m3 < 10) :
    opcodeField (wordOf op m1 m2 m3) = op ∧ wordOf op m1 m2 m3 < 100000 := by
  refine ⟨opcodeField_wordOf h .., ?_⟩
  unfold wordOf
  omega

theorem OpcodeField.mode_lt (m : Mode) : modeDigit m < 10 := lt_trans (modeDigit_lt m) (by decide)

theorem OpcodeField.add (a b : Mode) (d : Nat) : OpcodeField.Statement (.add a b d) := fun h =>
  OpcodeField.of_wordOf (by decide) (OpcodeField.mode_lt a) (OpcodeField.mode_lt b) (of_decide_eq_true h)

theorem OpcodeField.mul (a b : Mode) (d : Nat) : OpcodeField.Statement (.mul a b d) := fun h =>
  OpcodeField.of_wordOf (by decide) (OpcodeField.mode_lt a) (OpcodeField.mode_lt b) (of_decide_eq_true h)

theorem OpcodeField.input (d : Nat) : OpcodeField.Statement (.input d) := fun h =>
  OpcodeField.of_wordOf (by decide) (of_decide_eq_true h) (by decide) (by decide)

theorem OpcodeField.output (a : Mode) : OpcodeField.Statement (.output a) := fun _ =>
  OpcodeField.of_wordOf (by decide) (OpcodeField.mode_lt a) (by decide) (by decide)

theorem OpcodeField.jumpIfTrue (a b : Mode) : OpcodeField.Statement (.jumpIfTrue a b) := fun _ =>
  OpcodeField.of_wordOf (by decide) (OpcodeField.mode_lt a) (OpcodeField.mode_lt b) (by decide)

theorem OpcodeField.jumpIfFalse (a b : Mode) : OpcodeField.Statement (.jumpIfFalse a b) := fun _ =>
  OpcodeField.of_wordOf (by decide) (OpcodeField.mode_lt a) (OpcodeField.mode_lt b) (by decide)

theorem OpcodeField.lessThan (a b : Mode) (d : Nat) : OpcodeField.Statement (.lessThan a b d) := fun h =>
  OpcodeField.of_wordOf (by decide) (OpcodeField.mode_lt a) (OpcodeField.mode_lt b) (of_decide_eq_true h)

theorem OpcodeField.equals (a b : Mode) (d : Nat) : OpcodeField.Statement (.equals a b d) := fun h =>
  OpcodeField.of_wordOf (by decide) (OpcodeField.mode_lt a) (OpcodeField.mode_lt b) (of_decide_eq_true h)

theorem OpcodeField.halt : OpcodeField.Statement .halt := fun _ =>
  OpcodeField.of_wordOf (by decide) (by decide) (by decide) (by decide)

end Sys2Proof.Laws
end

