-- ==== Sys2Proof/Tests/Slice0.lean ====
section
/-! SUPPORT. Tests of one step each, with results from 95_test_vectors.md; the WellFormed smoke; a witness for the
hypotheses of each statement (theorems wit_…, named after the statement they belong to). -/

namespace Sys2Proof.Tests
open Sys2Proof.Machine

/-- The block at power-on with the program `p` loaded. -/
def prog (p : List Int) : State := { State.reset with mem := Memory.load p }

/-- The same with POISON at address `a`. -/
def poisoned (p : List Int) (a : Nat) : State := (prog p).store a .poison

/-- The same with a finite WORD_BITS, a finite INPUT_DEPTH or known token conversions. -/
def narrow (p : List Int) (w : Nat) : State := { prog p with cfg := { Config.default with wordBits := some w } }

def fed (p : List Int) (q : List Token) : State :=
  { prog p with
    inQ := q
    cfg :=
      { wordBits := some 8
        inputDepth := some 2
        parses := [("7", some 7), ("127", some 127), ("128", some 128), ("x", none)]
        waitsFromReset := true } }

/-- A machine that awaits no input between a reset and the engine's first turn, as R191 lists. -/
def lateWait (s : State) : State := { s with cfg := { s.cfg with waitsFromReset := false } }

/-- The same, waiting: the engine has had a turn and the queue is empty, with the turns `ts` to come. -/
def waiting (p : List Int) (ts : List Turn) : State := { fed p [] with schedule := ts, fresh := false }

/-- What `f` shows of the state after one step. -/
def after {α : Type} (s : State) (f : State → α) : Option α :=
  match step s with
  | .next t => some (f t)
  | .fault _ => none
  | .refused _ => none

/-! ### WellFormed smoke -/

theorem test_wf_refuses_add : (Instr.add .position .immediate 10).wellFormed = false := by decide
theorem test_wf_refuses_mul : (Instr.mul .position .position 11).wellFormed = false := by decide
theorem test_wf_refuses_input : (Instr.input 10).wellFormed = false := by decide
theorem test_wf_refuses_lessThan : (Instr.lessThan .immediate .position 10).wellFormed = false := by decide
theorem test_wf_refuses_equals : (Instr.equals .immediate .immediate 99).wellFormed = false := by decide
theorem test_wf_accepts : (Instr.add .position .immediate 9).wellFormed = true := by decide

/-! ### Decoding: every row of L2-1 -/

theorem test_decode_add : decode (.val 1) = .instr (.add .position .position 0) := by decide
theorem test_decode_add_modes : decode (.val 90101) = .instr (.add .immediate .position 9) := by decide
theorem test_decode_mul : decode (.val 1002) = .instr (.mul .position .immediate 0) := by decide
theorem test_decode_in : decode (.val 903) = .instr (.input 9) := by decide
theorem test_decode_out : decode (.val 104) = .instr (.output .immediate) := by decide
theorem test_decode_jt : decode (.val 10005) = .instr (.jumpIfTrue .position .position) := by decide
theorem test_decode_jf : decode (.val 1106) = .instr (.jumpIfFalse .immediate .immediate) := by decide
theorem test_decode_lt : decode (.val 1007) = .instr (.lessThan .position .immediate 0) := by decide
theorem test_decode_eq : decode (.val 1108) = .instr (.equals .immediate .immediate 0) := by decide
theorem test_decode_halt : decode (.val 12399) = .instr .halt := by decide

theorem test_decode_bad_modes :
    [204, 201, 2001, 2005, 12101].all (fun w => decode (.val w) == .fail .invalidOperandMode) = true := by decide

theorem test_decode_illegal :
    [0, 9, 10, 98, 100, 109, 5555, -1, -99, -101].all
      (fun w => decode (.val w) == .fail .unrecognizedOpcode) = true := by decide

theorem test_decode_poison : decode .poison = .fail .unrecognizedOpcode := by decide

/-- The examples of 30_encoding.md R89. -/
theorem test_assemble :
    AsmLine.assemble (.mul (.pos 4) (.imm 3) 4) = [1002, 4, 3, 4] ∧
    AsmLine.assemble (.jumpIfTrue (.imm 1) (.imm 7)) = [1105, 1, 7] := by decide

theorem test_table_word : decodeTableWord 8 99 = some .halt ∧ decodeTableWord 8 9 = none := by decide

theorem test_withFetchWord :
    after (State.reset.withFetchWord 8 7) (fun t => (t.mem.get 0, t.pc, t.status)) = some (.val 0, 4, .running) := by
  decide

/-! ### Instructions -/

/-- L1-1. -/
theorem test_add_self : after (prog [1, 0, 0, 0, 99]) (fun t => (t.mem.get 0, t.pc)) = some (.val 2, 4) := by decide
/-- L2-3, WORD_BITS = 64. -/
theorem test_add_overflow :
    after (narrow [1101, 9223372036854775807, 1, 5, 99, 0] 64) (fun t => (t.status, t.mem.get 5, t.pc))
      = some (.failed .arithmeticOverflow, .val 0, 0) := by decide
/-- L1-3. -/
theorem test_mul_next_word : after (prog [1002, 4, 3, 4, 33]) (fun t => (t.mem.get 4, t.pc)) = some (.val 99, 4) := by
  decide
/-- L2-3: the minimum of 64 bits is in range. -/
theorem test_mul_minimum :
    after (narrow [1102, -4294967296, 2147483648, 5, 99, 0] 64) (fun t => t.mem.get 5)
      = some (.val (-9223372036854775808)) := by decide
/-- L2-6: the queue is FIFO, one token is taken. -/
theorem test_in_oldest :
    after (fed [903, 3, 99, 0] ["7", "x"]) (fun t => (t.mem.get 3, t.inQ, t.pc)) = some (.val 7, ["x"], 2) := by decide
/-- L2-6: 128 is outside InRange_8. -/
theorem test_in_out_of_range : after (fed [3, 0, 99] ["128"]) (fun t => t.mem.get 0) = some .poison := by decide
/-- L1-9: awaiting after 0 steps, and the engine's turn changes nothing. -/
theorem test_in_waits :
    (prog [3, 0, 4, 0, 99]).waitingPort = 1 ∧
    after (prog [3, 0, 4, 0, 99]) (fun t => decide (t = { prog [3, 0, 4, 0, 99] with fresh := false })) = some true := by
  decide
/-- 70_reset_and_hazards.md R191, where the parameter follows it: not awaiting until the engine's first turn. -/
theorem test_in_late_wait :
    (lateWait (prog [3, 0, 99])).waitingPort = 0 ∧
    after (lateWait (prog [3, 0, 99])) (fun t => t.waitingPort) = some 1 := by decide
/-- L2-6: the destination fails before the token is taken. -/
theorem test_in_bad_destination :
    after (fed [3, 10] ["7"]) (fun t => (t.status, t.inQ)) = some (.failed .outOfBounds, ["7"]) := by decide
/-- L2-6. -/
theorem test_out_position : after (prog [4, 3, 99, -4]) (fun t => (t.out, t.pc)) = some ([-4], 2) := by decide
/-- L2-2: the operand cell itself is POISON. -/
theorem test_out_poison : after (poisoned [104, 0, 99] 1) (fun t => (t.status, t.out))
    = some (.failed .memoryCorrupted, []) := by decide
/-- L2-5. -/
theorem test_jt_negative_test : after (prog [1105, -1, 4, 99, 99]) (fun t => t.pc) = some 4 := by decide
/-- L2-5: not taken, but the target operand is resolved. -/
theorem test_jt_eager : after (prog [5, 4, 50, 99, 0]) (fun t => (t.status, t.pc)) = some (.failed .outOfBounds, 0) := by
  decide
/-- L2-5. -/
theorem test_jf_taken : after (prog [1106, 0, -1]) (fun t => (t.pc, t.status)) = some (-1, .running) := by decide
theorem test_jf_falls_through : after (prog [1106, -5, 4, 99, 99]) (fun t => t.pc) = some 3 := by decide
/-- L2-4. -/
theorem test_lt_signed : after (prog [1107, -6, -5, 5, 99, 7]) (fun t => t.mem.get 5) = some (.val 1) := by decide
theorem test_lt_equal : after (prog [1107, 5, 5, 5, 99, 7]) (fun t => t.mem.get 5) = some (.val 0) := by decide
theorem test_eq_same_cell : after (prog [8, 5, 5, 5, 99, 9]) (fun t => t.mem.get 5) = some (.val 1) := by decide
theorem test_eq_sign : after (prog [1108, 3, -3, 5, 99, 7]) (fun t => t.mem.get 5) = some (.val 0) := by decide
/-- L2-6: tokens stay. -/
theorem test_halt : after (fed [199] ["7"]) (fun t => (t.status, t.pc, t.inQ)) = some (.halted, 0, ["7"]) := by decide

/-! ### Fetch, priority, the host (L2-7, L3 P6) -/

theorem test_empty_program : after State.reset (fun t => t.status) = some (.failed .outOfBounds) := by decide
theorem test_priority_mode_first :
    after (prog [2201, 100, 0, 0]) (fun t => t.status) = some (.failed .invalidOperandMode) := by decide
theorem test_priority_destination_poison :
    after (poisoned [1, 0, 0, 0] 3) (fun t => t.status) = some (.failed .memoryCorrupted) := by decide
theorem test_reset_keeps_queue :
    after { fed [1, 0, 99] ["x"] with pc := 2, status := .halted, out := [5], schedule := [.reset [3, 0, 99]] }
      (fun t => (t.status, t.pc, t.mem == Memory.load [3, 0, 99], t.out, t.inQ))
      = some (.running, 0, true, [], ["x"]) := by decide
theorem test_push_held_when_full :
    after { fed [104, -7, 99] ["7", "x"] with schedule := [.push "128"] } (fun t => (t.inQ, t.out, t.schedule))
      = some (["7", "x"], [-7], [.push "128"]) := by decide

/-! ### Witnesses

Each shows a state and operands that meet all hypotheses of a statement, clause by clause. -/

theorem wit_IllegalWords :
    [0, 9, 98, -1].all (fun w => decide ((prog [w]).status = .running ∧ (prog [w]).fetch = .ok (.val w) ∧
      (w < 0 ∨ w % 100 = 0 ∨ (9 ≤ w % 100 ∧ w % 100 ≤ 98)))) = true ∧
    (poisoned [1] 0).status = .running ∧ (poisoned [1] 0).fetch = .ok .poison := by decide

theorem wit_BadReadMode :
    (prog [204]).status = .running ∧ (prog [204]).fetch = .ok (.val (204 : Nat)) ∧ 204 % 100 = 4 ∧ 2 ≤ 204 / 100 % 10 ∧
    (prog [9108]).fetch = .ok (.val (9108 : Nat)) ∧ 9108 % 100 = 8 ∧ 2 ≤ 9108 / 1000 % 10 := by decide

theorem wit_HighDigits : decode (.val (10003 : Nat)) = .instr (.input 0) ∧ decode (.val (99 : Nat)) = .instr .halt := by
  decide

/-- For AddressingModesAndWriteDigit: both modes of A and B, and an operand cell read raw and as a destination. -/
theorem wit_AddressingModes :
    decode (.val (1005 : Nat)) = .instr (.jumpIfTrue .position .immediate) ∧
    decode (.val (90102 : Nat)) = .instr (.mul .immediate .position 9) ∧
    decode (.val (104 : Nat)) = .instr (.output .immediate) ∧
    (prog [3, 1, 99]).readOperand 1 .immediate = .ok 1 ∧ (prog [3, 1, 99]).writeTarget 1 = .ok 1 ∧ 9 < 10 := by decide

theorem wit_RoundTrip : (Instr.equals .immediate .position 9).wellFormed = true ∧ (Instr.input 0).wellFormed = true := by
  decide

theorem wit_EncodeDecode : decode (.val (1111101 : Nat)) = .instr (.add .immediate .immediate 1) := by decide

theorem wit_AssembledLine : (AsmLine.lessThan (.pos 3) (.imm (-1)) 7).instr? = some (.lessThan .position .immediate 0) := by
  decide

theorem wit_OperandValue :
    (prog [1, 0, 5, 99, 0, -5]).readOperand 1 .immediate = .ok 0 ∧
    (prog [1, 0, 5, 99, 0, -5]).readOperand 2 .position = .ok (-5) := by decide

/-- For OutOfBoundsAccessFails: pc and pc + i at MEM_SIZE and at -1, an address at MEM_SIZE, and each operand position. -/
theorem wit_OutOfBounds :
    (let u : State := { prog [4] with pc := 1 }; u.status = .running ∧ ¬ (0 ≤ u.pc ∧ u.pc < u.mem.size)) ∧
    (let u : State := { prog [4] with pc := -1 }; u.status = .running ∧ ¬ (0 ≤ u.pc ∧ u.pc < u.mem.size)) ∧
    (¬ (0 ≤ (prog [4]).pc + (1 : Nat) ∧ (prog [4]).pc + (1 : Nat) < (prog [4]).mem.size)) ∧
    (prog [4, 2]).readOperand 1 .immediate = .ok 2 ∧ (¬ (0 ≤ (2 : Int) ∧ (2 : Int) < (prog [4, 2]).mem.size)) ∧
    (prog [1, 4, 0, 0]).readOperand 1 .position = .error .outOfBounds ∧
    (prog [1, 0, -1, 0]).readOperand 1 .position = .ok 1 ∧
    (prog [1, 0, -1, 0]).readOperand 2 .position = .error .outOfBounds ∧
    (prog [1, 0, 0, 4]).readOperand 2 .position = .ok 1 ∧ (prog [1, 0, 0, 4]).writeTarget 3 = .error .outOfBounds ∧
    (prog [3, -1]).writeTarget 1 = .error .outOfBounds := by decide

/-- A state with an operand cell outside memory, a POISON operand cell, one with an address outside, one addressing
POISON and one addressing an integer, at the first and last addresses. -/
theorem wit_ReadOperand :
    let s := (prog [0, 0, -1, 1, 0, 6]).store 1 .poison
    (¬ (0 ≤ s.pc + 6 ∧ s.pc + 6 < s.mem.size)) ∧ s.mem.get 1 = .poison ∧
    s.mem.get 2 = .val (-1) ∧ (¬ (0 ≤ (-1 : Int) ∧ (-1 : Int) < s.mem.size)) ∧
    s.mem.get 3 = .val 1 ∧ s.mem.get 5 = .val 6 ∧ (¬ ((6 : Int) < s.mem.size)) ∧
    s.mem.get 4 = .val 0 ∧ s.mem.get 0 = .val 0 ∧ (0 : Int) < s.mem.size := by decide

theorem wit_WriteTarget :
    let s := (prog [1, 0, -1, 5, 0, 6]).store 1 .poison
    (¬ (0 ≤ s.pc + 6 ∧ s.pc + 6 < s.mem.size)) ∧ s.mem.get 1 = .poison ∧ s.mem.get 2 = .val (-1) ∧
    s.mem.get 5 = .val 6 ∧ s.mem.get 3 = .val 5 ∧ (5 : Int) < s.mem.size ∧ s.mem.get 4 = .val 0 := by decide

/-- For AddStoresSum, MultiplyStoresProduct, LessThanStoresZeroOrOne, EqualsStoresZeroOrOne and, its destination being
the next instruction word, NextFetchSeesStore. -/
theorem wit_FourCells :
    let s := narrow [1001, 0, -1, 4, 99] 16
    s.readOperand 1 .position = .ok 1001 ∧ s.readOperand 2 .immediate = .ok (-1) ∧ s.writeTarget 3 = .ok 4 ∧
    inRange s.cfg (1001 + -1) = true ∧ inRange s.cfg (1001 * -1) = true ∧ ((4 : Nat) : Int) = s.pc + 4 := by decide

/-- The other two comparison clauses, x < y and x = y; wit_FirstFailingOperand meets the failure clause. -/
theorem wit_CompareClauses :
    (prog [1107, -1, 0, 4, 99]).readOperand 1 .immediate = .ok (-1) ∧
    (prog [1107, -1, 0, 4, 99]).readOperand 2 .immediate = .ok 0 ∧
    (prog [1107, -1, 0, 4, 99]).writeTarget 3 = .ok 4 ∧
    (prog [8, 0, 0, 0]).readOperand 1 .position = .ok 8 ∧ (prog [8, 0, 0, 0]).readOperand 2 .position = .ok 8 ∧
    (prog [8, 0, 0, 0]).writeTarget 3 = .ok 0 := by decide

theorem wit_OutOfRangeResult :
    let s := narrow [1101, 64, 64, 4, 99] 8
    s.readOperand 1 .immediate = .ok 64 ∧ s.readOperand 2 .immediate = .ok 64 ∧ s.writeTarget 3 = .ok 4 ∧
    inRange s.cfg (64 + 64) = false ∧ inRange s.cfg (64 * 64) = false := by decide

theorem wit_AddMulResume :
    (prog [1, 0, 0, 0]).status = .running ∧
    ∃ t, exec (.add .position .position 0) (prog [1, 0, 0, 0]) = .next t ∧ t.status = .running := ⟨by decide, _, rfl, by decide⟩

theorem wit_FirstFailingOperand :
    (prog [1, -1, 0, 0]).readOperand 1 .position = .error .outOfBounds ∧
    (poisoned [101, 5, 5, 0, 99, 0] 5).readOperand 1 .immediate = .ok 5 ∧
    (poisoned [101, 5, 5, 0, 99, 0] 5).readOperand 2 .position = .error .memoryCorrupted ∧
    (prog [1, 0, 0, 4]).readOperand 1 .position = .ok 1 ∧ (prog [1, 0, 0, 4]).readOperand 2 .position = .ok 1 ∧
    (prog [1, 0, 0, 4]).writeTarget 3 = .error .outOfBounds := by decide

theorem wit_Overflow :
    let s := narrow [1101, 64, 64, 4, 99] 8
    s.status = .running ∧ ∃ t, engineStep s = .next t ∧ t.status = .failed .arithmeticOverflow := ⟨by decide, _, rfl, by decide⟩

/-- For InputStoresOldestToken, OnlyInputRemovesTokens and the Input clause of MalformedTokenFailsAtUse: the three
kinds of token, the largest integer in range and the smallest above it among them. -/
theorem wit_InputToken :
    let s := fed [3, 1, 99] ["127"]
    s.writeTarget 1 = .ok 1 ∧ s.inQ = ["127"] ∧ parseToken s.cfg "127" = some 127 ∧ inRange s.cfg 127 = true ∧
    (fed [3, 1, 99] ["128"]).inQ = ["128"] ∧ parseToken s.cfg "128" = some 128 ∧ inRange s.cfg 128 = false ∧
    (fed [3, 1, 99] ["x"]).inQ = ["x"] ∧ parseToken s.cfg "x" = none := by decide

/-- The Input clause of NextFetchSeesStore, for an integer and for the POISON of L2-6. -/
theorem wit_InputNextFetch :
    (fed [3, 2, 0] ["7"]).writeTarget 1 = .ok 2 ∧ (fed [3, 2, 0] ["7"]).inQ = ["7"] ∧
    ((2 : Nat) : Int) = (fed [3, 2, 0] ["7"]).pc + 2 ∧ tokenCell (fed [3, 2, 0] ["7"]).cfg "7" = .val 7 ∧
    (fed [3, 2, 0] ["x"]).writeTarget 1 = .ok 2 ∧ (fed [3, 2, 0] ["x"]).inQ = ["x"] ∧
    tokenCell (fed [3, 2, 0] ["x"]).cfg "x" = .poison := by decide

theorem wit_InputFails : (fed [3, 10] ["7"]).writeTarget 1 = .error .outOfBounds := by decide

/-- For AwaitingEngineStaysSuspended and PushedTokenEndsWait: an engine turn, in a fresh run too, a push that
ends the wait. -/
theorem wit_Awaiting :
    ((prog [3, 0, 99]).awaiting = true ∧ (prog [3, 0, 99]).upcoming = .engine ∧ (prog [3, 0, 99]).fresh = true) ∧
    ((waiting [3, 0, 99] []).awaiting = true ∧ (waiting [3, 0, 99] []).upcoming = .engine) ∧
    let s := waiting [3, 0, 99] [.push "7"]
    s.awaiting = true ∧ s.upcoming = .push "7" ∧ s.inReady = true ∧ s.taken.upcoming = .engine ∧
    after s (fun t => t.awaiting) = some false := by decide

theorem wit_RemovesTokens : ∃ t, step (fed [3, 0, 99] ["7"]) = .next t ∧ t.inQ = [] := ⟨_, rfl, by decide⟩

theorem wit_MalformedUse :
    let s := poisoned [1, 2, 0, 2] 2
    ((2 : Nat) : Int) = s.pc + 2 ∧ 2 < s.mem.size ∧ s.mem.get 2 = .poison ∧
    ((1 : Nat) : Int) = s.pc + 1 ∧ 1 < s.mem.size ∧ s.mem.get 1 = .val ((2 : Nat) : Int) ∧
    (poisoned [1] 0).status = .running ∧ (poisoned [1] 0).fetch = .ok .poison := by decide

theorem wit_MalformedFailure :
    (poisoned [104, 0, 99] 1).status = .running ∧
    ∃ t, engineStep (poisoned [104, 0, 99] 1) = .next t ∧ t.status = .failed .memoryCorrupted := ⟨by decide, _, rfl, by decide⟩

/-- The same by the cell a position-mode operand addresses. -/
theorem wit_MalformedAddressed :
    (poisoned [4, 2, 99] 2).status = .running ∧ (Instr.output .position).readModes[1 - 1]? = some .position ∧
    ∃ t, engineStep (poisoned [4, 2, 99] 2) = .next t ∧ t.status = .failed .memoryCorrupted :=
  ⟨by decide, by decide, _, rfl, by decide⟩

/-- The Input that stores a token that converts over POISON. -/
theorem wit_InputOverwrites :
    let s := (fed [3, 3, 99, 0] ["7"]).store 3 .poison
    s.mem.get 3 = .poison ∧ s.writeTarget 1 = .ok 3 ∧ s.inQ = ["7"] ∧ parseToken s.cfg "7" = some 7 ∧
    inRange s.cfg 7 = true := by decide

/-- L2-2: the destination cell holds POISON. -/
theorem wit_MalformedOverwritten :
    let s := poisoned [1, 0, 0, 5, 99, 0] 5
    s.mem.get 5 = .poison ∧ s.writeTarget 3 = .ok 5 ∧ s.status = .running ∧
    ∃ t, exec (.add .position .position 0) s = .next t ∧ t.status = .running :=
  ⟨by decide, by decide, by decide, _, rfl, by decide⟩

theorem wit_Output :
    (prog [104, -7, 99]).readOperand 1 .immediate = .ok (-7) ∧
    (prog [4, 3, 99]).readOperand 1 .position = .error .outOfBounds := by decide

/-- For OnlyOutputEmits, SizeAndParametersAreFixed and OutputsAreNeverReadBack. -/
theorem wit_OutputStep :
    (∃ t, step (prog [104, -7, 99]) = .next t ∧ t.out = [-7]) ∧ (∃ t, engineStep (prog [104, -7, 99]) = .next t) ∧
    ∀ image, (prog [104, -7, 99]).upcoming ≠ .reset image := ⟨⟨_, rfl, by decide⟩, ⟨_, rfl⟩, fun _ h => nomatch h⟩

/-- For EngineStepBoundsItsEffects: a write, an Input, one that waits, a form that stores nothing, a failure and a
terminal status. -/
theorem wit_EngineStep :
    (let s := prog [1101, 1, 2, 3]
     s.status = .running ∧ s.fetch = .ok (.val 1101) ∧ decode (.val 1101) = .instr (.add .immediate .immediate 0) ∧
     s.writeTarget 3 = .ok 3 ∧ ∃ t, engineStep s = .next t) ∧
    (let s := fed [3, 1] ["7"]
     s.status = .running ∧ s.fetch = .ok (.val 3) ∧ decode (.val 3) = .instr (.input 0) ∧ s.writeTarget 1 = .ok 1 ∧
     ∃ t, engineStep s = .next t) ∧
    ((fed [3, 1] []).inQ = [] ∧ ∃ t, engineStep (fed [3, 1] []) = .next t) ∧
    (let s := prog [99]
     s.status = .running ∧ s.fetch = .ok (.val 99) ∧ decode (.val 99) = .instr .halt ∧ ∃ t, engineStep s = .next t) ∧
    (∃ t, engineStep (prog [5555]) = .next t ∧ t.status = .failed .unrecognizedOpcode) ∧
    let s : State := { prog [99] with status := .halted }
    s.status ≠ .running ∧ ∃ t, engineStep s = .next t :=
  ⟨⟨by decide, by decide, by decide, by decide, _, rfl⟩, ⟨by decide, by decide, by decide, by decide, _, rfl⟩,
    ⟨by decide, _, rfl⟩, ⟨by decide, by decide, by decide, _, rfl⟩, ⟨_, rfl, by decide⟩, by decide, _, rfl⟩

/-- For JumpIfTrueSetsPc and JumpIfFalseSetsPc: a test of 0 and another. -/
theorem wit_Jumps :
    (prog [1105, -1, -2]).readOperand 1 .immediate = .ok (-1) ∧ (prog [1105, -1, -2]).readOperand 2 .immediate = .ok (-2) ∧
    (prog [1106, 0, 7]).readOperand 1 .immediate = .ok 0 ∧ (prog [1106, 0, 7]).readOperand 2 .immediate = .ok 7 := by decide

theorem wit_JumpFailures :
    (prog [5, 9, 0]).readOperand 1 .position = .error .outOfBounds ∧
    (prog [5, 4, 50, 99, 0]).readOperand 1 .position = .ok 0 ∧
    (prog [5, 4, 50, 99, 0]).readOperand 2 .position = .error .outOfBounds := by decide

theorem wit_Halt :
    (prog [12399]).status = .running ∧ (prog [12399]).fetch = .ok (.val (12399 : Nat)) ∧ 12399 % 100 = 99 := by decide

theorem wit_PcSequencing :
    let s := prog [1105, 1, 7]
    s.status = .running ∧ s.fetch = .ok (.val 1105) ∧ decode (.val 1105) = .instr (.jumpIfTrue .immediate .immediate) ∧
    (∃ t, engineStep s = .next t ∧ t.status = .running) ∧ (fed [3, 1] ["7"]).inQ ≠ [] ∧
    (∃ t, engineStep (fed [3, 1] ["7"]) = .next t ∧ t.status = .running) ∧
    (∃ t, engineStep (prog [99]) = .next t ∧ t.status ≠ .running) ∧
    (let u : State := { s with pc := 3 }; u.status = .running ∧ ¬ (0 ≤ u.pc ∧ u.pc < u.mem.size)) ∧
    (let u : State := { s with pc := -1 }; u.status = .running ∧ ¬ (0 ≤ u.pc ∧ u.pc < u.mem.size)) :=
  ⟨by decide, by decide, by decide, ⟨_, rfl, by decide⟩, by decide, ⟨_, rfl, by decide⟩, ⟨_, rfl, by decide⟩, by decide,
    by decide⟩

theorem wit_StepRuns :
    let s := fed [104, -7, 99] ["7", "7"]
    s.status = .running ∧ s.fetch = .ok (.val 104) ∧ decode (.val 104) = .instr (.output .immediate) ∧ s.schedule = [] ∧
    s.future = .quiet ∧ ({ s with schedule := [.engine] } : State).upcoming = .engine ∧
    ({ s with schedule := [.push "x"] } : State).upcoming = .push "x" ∧
    ({ s with schedule := [.push "x"] } : State).inReady = false := by decide

theorem wit_Failure :
    (prog [5555]).status = .running ∧
    ∃ t, engineStep (prog [5555]) = .next t ∧ t.status = .failed .unrecognizedOpcode := ⟨by decide, _, rfl, by decide⟩

theorem wit_Terminal :
    ({ prog [99] with status := .halted } : State).finished = true ∧
    ({ prog [99] with status := .failed .outOfBounds, schedule := [.push "7"] } : State).finished = true ∧
    (∀ image, ({ prog [99] with status := .halted } : State).upcoming ≠ .reset image) ∧
    ∀ image, ({ prog [99] with status := .failed .outOfBounds, schedule := [.push "7"] } : State).upcoming ≠ .reset image :=
  ⟨by decide, by decide, fun image => show Turn.engine ≠ .reset image from nofun,
    fun image => show Turn.push "7" ≠ .reset image from nofun⟩

theorem inRange_of_unbounded {cfg : Config} (h : cfg.wordBits = none) (v : Int) : inRange cfg v = true := by
  simp [inRange, h]

theorem wit_Invariant : (prog [1, 0, 0, 0, 99]).Inv ∧ ∃ t, step (prog [1, 0, 0, 0, 99]) = .next t :=
  ⟨⟨by decide, by decide, Memory.get_inRange (by decide) (by decide), by decide, by decide⟩, _, rfl⟩

theorem wit_Reset :
    let s : State := { fed [99] ["7"] with status := .halted, schedule := [.reset [-128, 127]] }
    s.upcoming = .reset [-128, 127] ∧ (∀ v ∈ ([-128, 127] : List Int), inRange s.cfg v = true) ∧
    s.cfg.waitsFromReset = true ∧ (lateWait s).cfg.waitsFromReset = false := by decide

/-- The ports after a reset to an Input that finds no token, for both values of the parameter. -/
theorem test_reset_to_input :
    let s : State := { fed [99] [] with schedule := [.reset [3, 0, 99]] }
    after s (fun t => t.waitingPort) = some 1 ∧ after (lateWait s) (fun t => t.waitingPort) = some 0 := by decide

theorem wit_Push :
    let s : State := { fed [99] ["7"] with schedule := [.push "x"] }
    s.upcoming = .push "x" ∧ s.cfg.inputDepth = some 2 ∧ s.inQ.length < 2 ∧
    ({ prog [99] with schedule := [.push "x"] } : State).cfg.inputDepth = none ∧
    ({ prog [99] with schedule := [.push "x"] } : State).upcoming = .push "x" ∧
    (let u : State := { fed [99] ["7", "7"] with schedule := [.push "x"] }
     u.upcoming = .push "x" ∧ u.cfg.inputDepth = some 2 ∧ 2 ≤ u.inQ.length ∧ ∃ t, step u = .next t) :=
  ⟨by decide, by decide, by decide, by decide, by decide, by decide, by decide, by decide, _, rfl⟩

theorem wit_BadImage :
    let s : State := { fed [99] [] with schedule := [.reset [128]] }
    s.upcoming = .reset [128] ∧ inRange s.cfg 128 = false := by decide

theorem wit_Ports :
    (waiting [3, 0] []).status = .running ∧ (waiting [3, 0] []).waitingPort = 1 ∧
    ((prog [3, 0]).cfg.waitsFromReset = true ∧ (prog [3, 0]).fresh = true ∧ (prog [3, 0]).waitingPort = 1) ∧
    ((lateWait (prog [3, 0])).cfg.waitsFromReset = false ∧ (lateWait (prog [3, 0])).fresh = true) ∧
    ({ prog [3, 0] with status := .halted } : State).status = .halted ∧
    [FailKind.unrecognizedOpcode, .invalidOperandMode, .memoryCorrupted, .outOfBounds, .arithmeticOverflow].all
      (fun k => ({ prog [3, 0] with status := .failed k } : State).status == .failed k) = true := by decide

/-- For TurnsComeInOrder: turns listed, none listed and a quiet host, none listed in an unending run. -/
theorem wit_Turns :
    (waiting [99] [.push "7", .engine]).schedule = .push "7" :: [.engine] ∧
    ((prog [99]).schedule = [] ∧ (prog [99]).future = .quiet) ∧
    let s : State := { prog [99] with future := .free 0 }
    s.schedule = [] ∧ s.future = .free 0 := by decide

theorem wit_PcInRange :
    (narrow [1, 0, 0, 0, 99] 8).Inv ∧ (narrow [1, 0, 0, 0, 99] 8).cfg.wordBits = some 8 ∧
    (narrow [1, 0, 0, 0, 99] 8).mem.size + 4 ≤ 2 ^ (8 - 1) ∧
    inRange (narrow [1, 0, 0, 0, 99] 8).cfg (narrow [1, 0, 0, 0, 99] 8).pc = true ∧
    ∃ t, engineStep (narrow [1, 0, 0, 0, 99] 8) = .next t :=
  ⟨⟨by decide, by decide, Memory.get_inRange (by decide) (by decide), by decide, by decide⟩, by decide, by decide, by decide,
    _, rfl⟩

theorem wit_EqualMemories :
    let m := (prog [1, 0, 7]).mem
    let m' := ((prog [1, 5, 7]).mem).set 1 (.val 0)
    m.wf = true ∧ m'.wf = true ∧ m.size = m'.size ∧ m = m' := by decide

end Sys2Proof.Tests
end

section
/-! PROOFS. The encoding family: read-operand modes, write digits and the value of a read operand. -/

open Sys2Proof Sys2Proof.Machine

namespace Sys2Proof

/-! ### The decoder's answers -/

theorem digit_two (w : Nat) : digit w 2 = w / 100 % 10 := rfl

theorem digit_three (w : Nat) : digit w 3 = w / 1000 % 10 := rfl

theorem eq_modeDigit_iff (n : Nat) (m : Mode) :
    n = modeDigit m ↔ (m = .position ∧ n = 0) ∨ (m = .immediate ∧ n = 1) := by
  cases m <;> simp [modeDigit]

/-- Opcode 4 reads operand 1 alone; opcodes 1, 2, 5, 6, 7 and 8 read operands 1 and 2; the others read none. -/
theorem decodeWord_invalidOperandMode_iff (w : Nat) :
    decodeWord w = .fail .invalidOperandMode ↔
      (w % 100 = 4 ∧ 2 ≤ digit w 2) ∨
      ((w % 100 = 1 ∨ w % 100 = 2 ∨ w % 100 = 5 ∨ w % 100 = 6 ∨ w % 100 = 7 ∨ w % 100 = 8) ∧
        (2 ≤ digit w 2 ∨ 2 ≤ digit w 3)) := by
  unfold decodeWord opcodeField
  split
  case h_4 he => simp [he, decodeOneRead_fail_iff]
  case h_3 he | h_9 he => simp [he]
  case h_10 => simp_all
  all_goals
    rename_i he
    simp [he, decodeTwoReads_fail_iff]

/-- The mode of read operand `k + 1` of a decoded instruction is the one digit `k + 2` of the word stands for. -/
theorem digit_of_readModes {w k : Nat} {i : Instr} {m : Mode} (h : decodeWord w = .instr i)
    (hm : i.readModes[k]? = some m) : digit w (k + 2) = modeDigit m := by
  have two {a b : Mode} (ha : digit w 2 = modeDigit a) (hb : digit w 3 = modeDigit b)
      (hm : [a, b][k]? = some m) : digit w (k + 2) = modeDigit m := by
    match k with
    | 0 => simp_all
    | 1 => simp_all
    | _ + 2 => simp at hm
  obtain ⟨a, b, -, ha, hb, rfl⟩ | ⟨a, b, -, ha, hb, rfl⟩ | ⟨-, rfl⟩ | ⟨a, -, ha, rfl⟩ | ⟨a, b, -, ha, hb, rfl⟩ |
    ⟨a, b, -, ha, hb, rfl⟩ | ⟨a, b, -, ha, hb, rfl⟩ | ⟨a, b, -, ha, hb, rfl⟩ | ⟨-, rfl⟩ := decodeWord_instr_cases h
  · exact two ha hb hm
  · exact two ha hb hm
  · simp [Instr.readModes] at hm
  · match k with
    | 0 => simp_all [Instr.readModes]
    | _ + 1 => simp [Instr.readModes] at hm
  · exact two ha hb hm
  · exact two ha hb hm
  · exact two ha hb hm
  · exact two ha hb hm
  · simp [Instr.readModes] at hm

theorem decodeOneRead_wordOf {op : Nat} (h : op < 100) (a : Mode) (m2 m3 : Nat) (f : Mode → Instr) :
    decodeOneRead (wordOf op (modeDigit a) m2 m3) f = .instr (f a) :=
  (decodeOneRead_instr_iff ..).2 ⟨a, digit2_wordOf h (Laws.OpcodeField.mode_lt a) .., rfl⟩

theorem decodeTwoReads_wordOf {op : Nat} (h : op < 100) (a b : Mode) (m3 : Nat) (f : Mode → Mode → Instr) :
    decodeTwoReads (wordOf op (modeDigit a) (modeDigit b) m3) f = .instr (f a b) :=
  (decodeTwoReads_instr_iff ..).2 ⟨a, b, digit2_wordOf h (Laws.OpcodeField.mode_lt a) ..,
    digit3_wordOf h (Laws.OpcodeField.mode_lt a) (Laws.OpcodeField.mode_lt b) _, rfl⟩

theorem decodeWord_encode {i : Instr} (h : i.wellFormed = true) : decodeWord (encode i) = .instr i := by
  cases i with
  | add a b d | mul a b d | lessThan a b d | equals a b d =>
    have hd : d < 10 := of_decide_eq_true h
    simp [decodeWord, encode, opcodeField_wordOf, decodeTwoReads_wordOf, digit4_wordOf, Laws.OpcodeField.mode_lt, hd]
  | input d =>
    have hd : d < 10 := of_decide_eq_true h
    simp [decodeWord, encode, opcodeField_wordOf, digit2_wordOf, hd]
  | output a => simp [decodeWord, encode, opcodeField_wordOf, decodeOneRead_wordOf]
  | jumpIfTrue a b | jumpIfFalse a b => simp [decodeWord, encode, opcodeField_wordOf, decodeTwoReads_wordOf]
  | halt => rfl

end Sys2Proof

namespace Sys2Proof.Machine

/-! ### The engine and the operand resolver -/

theorem engineStep_of_decode_fail {s : State} {c : Cell} {k : FailKind} (hs : s.status = .running)
    (hf : s.fetch = .ok c) (hd : decode c = .fail k) : engineStep s = .next (s.raise k) := by
  simp [engineStep, hs, hf, hd]

theorem State.readOperand_position_ok_iff (s : State) (i : Nat) (v : Int) :
    s.readOperand i .position = .ok v ↔ ∃ raw, s.loadInt (s.pc + i) = .ok raw ∧ s.loadInt raw = .ok v := by
  rw [State.readOperand_position]
  cases s.loadInt (s.pc + i) <;> simp [Except.bind]

/-- Position mode dereferences the value immediate mode takes literally. -/
theorem State.readOperand_position_of_immediate {s : State} {i : Nat} {raw : Int}
    (h : s.readOperand i .immediate = .ok raw) : s.readOperand i .position = s.loadInt raw := by
  rw [State.readOperand_immediate] at h
  rw [State.readOperand_position, h]
  rfl

/-- A destination is the value immediate mode would read from the same operand cell. -/
theorem State.writeTarget_of_immediate {s : State} {i d : Nat} {raw : Int}
    (h : s.readOperand i .immediate = .ok raw) (hd : s.writeTarget i = .ok d) : (d : Int) = raw := by
  obtain ⟨raw', hr, hb, rfl⟩ := (s.writeTarget_ok_iff i d).1 hd
  rw [State.readOperand_immediate, hr] at h
  injection h with h
  subst h
  exact Int.toNat_of_nonneg ((s.mem.inBounds_iff raw').1 hb).1

/-! ### The write digit has no effect -/

theorem execAdd_wdigit (a b : Mode) (d e : Nat) (s : State) : execAdd a b d s = execAdd a b e s := rfl

theorem execMul_wdigit (a b : Mode) (d e : Nat) (s : State) : execMul a b d s = execMul a b e s := rfl

theorem execLessThan_wdigit (a b : Mode) (d e : Nat) (s : State) : execLessThan a b d s = execLessThan a b e s := rfl

theorem execEquals_wdigit (a b : Mode) (d e : Nat) (s : State) : execEquals a b d s = execEquals a b e s := rfl

theorem execInput_wdigit (d e : Nat) (s : State) : execInput d s = execInput e s := rfl

end Sys2Proof.Machine

/-! ### The statements -/

/-- Settles O2: the decoder's failing digits, and a decoding failure raised by the engine (30_encoding.md R84). -/
theorem badReadModeFailsInvalidMode : Obligations.BadReadModeFailsInvalidMode := by
  intro w
  have hiff := (decode_nat w).symm ▸ decodeWord_invalidOperandMode_iff w
  exact ⟨hiff, fun s hs hf hw => engineStep_of_decode_fail hs hf (hiff.2 hw)⟩

/-- Settles O4: the modes are the digits of the word, and the write digit is only carried along (30_encoding.md R76). -/
theorem addressingModesAndWriteDigit : Obligations.AddressingModesAndWriteDigit := by
  refine ⟨fun w a b d i h => ?_, fun s i raw h => ?_, fun a b d hd => ?_⟩
  · rw [decode_nat] at h
    constructor <;> intro hi
    · have hm : i.readModes[0]? = some a := by
        rcases hi with rfl | rfl | rfl | rfl | rfl | rfl | rfl <;> rfl
      exact (eq_modeDigit_iff _ _).1 (digit_two w ▸ digit_of_readModes h hm)
    · have hm : i.readModes[1]? = some b := by
        rcases hi with rfl | rfl | rfl | rfl | rfl | rfl <;> rfl
      exact (eq_modeDigit_iff _ _).1 (digit_three w ▸ digit_of_readModes h hm)
  · exact ⟨State.readOperand_position_of_immediate h, fun d hd => State.writeTarget_of_immediate h hd⟩
  · have hwf : writeDigitOk d = true := decide_eq_true hd
    have word (i : Instr) (hi : i.wellFormed = true) : decode (.val (encode i : Int)) = .instr i :=
      (decode_nat _).trans (decodeWord_encode hi)
    exact ⟨word (.add a b d) hwf, word (.mul a b d) hwf, word (.lessThan a b d) hwf, word (.equals a b d) hwf,
      word (.input d) hwf, fun s => ⟨execAdd_wdigit a b d 0 s, execMul_wdigit a b d 0 s,
        execLessThan_wdigit a b d 0 s, execEquals_wdigit a b d 0 s, execInput_wdigit d 0 s⟩⟩

/-- Settles O9: a resolved operand is one load in immediate mode and two in position mode (30_encoding.md R81). -/
theorem operandValueIsWholeCell : Obligations.OperandValueIsWholeCell := by
  intro s i v
  constructor
  · rw [State.readOperand_immediate, State.loadInt_ok_iff, Memory.inBounds_iff]
  · simp only [State.readOperand_position_ok_iff, State.loadInt_ok_iff, Memory.inBounds_iff, and_assoc]

end

section
/-! PROOFS. The arithmetic family: where execution resumes after ADD and MUL. -/

open Sys2Proof Sys2Proof.Machine

namespace Sys2Proof.Machine

/-- An instruction of format F4 that keeps the engine running did not fail, so it stored and fell through. -/
theorem State.readReadStore_pc_of_running {s t : State} {i : Instr} {a b : Mode} {alu : Int → Int → Except FailKind Int}
    (h : s.readReadStore i a b alu = .next t) (ht : t.status = .running) : t.pc = s.pc + i.oplen := by
  obtain ⟨k, rfl⟩ | ⟨x, y, d, r, -, -, -, -, rfl⟩ := State.readReadStore_cases h
  · simp at ht
  · simp

end Sys2Proof.Machine

/-- Settles O18: ADD and MUL are of format F4 and take four cells (40_arithmetic.md R103). -/
theorem addMulResumeFourCellsOn : Obligations.AddMulResumeFourCellsOn := by
  intro a b w s t _ ht h
  obtain hadd | hmul := h
  · exact State.readReadStore_pc_of_running (i := .add a b w) hadd ht
  · exact State.readReadStore_pc_of_running (i := .mul a b w) hmul ht

end

section
/-! PROOFS. The input and output family: tokens leave the queue at an Input only, POISON fails where it is used, and what
an Output does. -/

open Sys2Proof Sys2Proof.Machine

namespace Sys2Proof

/-- The read operands come first, and an instruction is longer than they are many (30_encoding.md R73). -/
theorem Instr.readModes_length_lt (i : Instr) : i.readModes.length < i.oplen := by
  cases i <;> simp [Instr.readModes, Instr.oplen]

theorem decodeWord_fail_kind {w : Nat} {k : FailKind} (h : decodeWord w = .fail k) :
    k = .unrecognizedOpcode ∨ k = .invalidOperandMode := by
  unfold decodeWord at h
  split at h
  case h_4 => exact .inr ((decodeOneRead_fail_iff ..).1 h).1
  case h_3 | h_9 => simp at h
  case h_10 => exact .inl (Decoded.fail.inj h).symm
  all_goals exact .inr ((decodeTwoReads_fail_iff ..).1 h).1

/-- The two failures of the decoder (30_encoding.md R83, R84). -/
theorem decode_fail_kind {c : Cell} {k : FailKind} (h : decode c = .fail k) :
    k = .unrecognizedOpcode ∨ k = .invalidOperandMode := by
  cases c with
  | poison => exact .inl (Decoded.fail.inj h).symm
  | val w =>
    simp only [decode] at h
    split at h
    · exact .inl (Decoded.fail.inj h).symm
    · exact decodeWord_fail_kind h

end Sys2Proof

namespace Sys2Proof.Machine

/-! ### The input queue -/

/-- An instruction keeps the queue, or is an Input that completes and takes its oldest token. -/
theorem Effect.inQ_cases {s t : State} {i : Instr} (h : Effect s i t) :
    t.inQ = s.inQ ∨
    ∃ w tok, i = .input w ∧ s.inQ = tok :: t.inQ ∧ t.status = s.status ∧ t.pc = s.pc + 2 := by
  cases h with
  | fail | wait | store | output | jump | fallThrough | halt => exact .inl rfl
  | input w hi d hd tok rest hq => exact .inr ⟨w, tok, hi, hq, rfl, by simp [hi, Instr.oplen]⟩

/-- The step from `s` to `t` is an Input that completes, and takes the oldest token and no more. -/
def State.TakesToken (s t : State) : Prop :=
  ∃ tok c w, s.inQ = tok :: t.inQ ∧ s.status = .running ∧ s.fetch = .ok c ∧ decode c = .instr (.input w) ∧
    t.status = .running ∧ t.pc = s.pc + 2

theorem engineStep_inQ_cases {s t : State} (h : engineStep s = .next t) : t.inQ = s.inQ ∨ s.TakesToken t := by
  obtain ⟨-, rfl⟩ | ⟨-, -, rfl⟩ | ⟨c, k, -, -, -, rfl⟩ | ⟨c, i, hs, hf, hd, he⟩ := engineStep_cases h
  · exact .inl rfl
  · exact .inl rfl
  · exact .inl rfl
  · obtain hq | ⟨w, tok, rfl, hq, ht, hpc⟩ := (exec_effect he).inQ_cases
    · exact .inl hq
    · exact .inr ⟨tok, c, w, hq, hs, hf, hd, ht.trans hs, hpc⟩

/-- A turn is an engine step, from the state before but for the turns to come and `fresh`, or a push or a reset. -/
theorem step_agents {s t : State} (h : step s = .next t) :
    (∃ r f, engineStep { s with schedule := r, future := f, fresh := false } = .next t) ∨
    (∃ tok, t = s.taken.pushToken tok) ∨ ∃ image, t = s.taken.restart image := by
  obtain h | ⟨tok, -, -, rfl⟩ | h | ⟨image, -, -, rfl⟩ := step_cases h
  · exact .inl (step_engine_start (.inl h))
  · exact .inr (.inl ⟨tok, rfl⟩)
  · exact .inl (step_engine_start (.inr h))
  · exact .inr (.inr ⟨image, rfl⟩)

/-- The host only adds to the tail of the queue. -/
theorem step_inQ_cases {s t : State} (h : step s = .next t) : (∃ suffix, t.inQ = s.inQ ++ suffix) ∨ s.TakesToken t := by
  obtain ⟨r, f, h⟩ | ⟨tok, rfl⟩ | ⟨image, rfl⟩ := step_agents h
  · exact (engineStep_inQ_cases h).imp_left fun hq => ⟨[], by simpa using hq⟩
  · exact .inl ⟨[tok], by simp⟩
  · exact .inl ⟨[], by simp⟩

/-! ### The cell an Input stores -/

theorem tokenCell_of_parse_none {cfg : Config} {tok : Token} (h : parseToken cfg tok = none) :
    tokenCell cfg tok = .poison := by
  simp [tokenCell, h]

theorem tokenCell_of_inRange {cfg : Config} {tok : Token} {v : Int} (h : parseToken cfg tok = some v)
    (hv : inRange cfg v = true) : tokenCell cfg tok = .val v := by
  simp [tokenCell, h, hv]

/-! ### POISON met by the operand resolver -/

theorem State.loadInt_of_get {s : State} {a : Int} {p : Nat} {v : Int} (ha : (p : Int) = a) (hp : p < s.mem.size)
    (hc : s.mem.get p = .val v) : s.loadInt a = .ok v := by
  subst ha
  exact (s.loadInt_ok_iff p v).2 ⟨(s.mem.inBounds_iff p).2 (by omega), hc⟩

theorem State.loadInt_memoryCorrupted_iff (s : State) (a : Int) :
    s.loadInt a = .error .memoryCorrupted ↔ ∃ p : Nat, (p : Int) = a ∧ p < s.mem.size ∧ s.mem.get p = .poison := by
  rw [State.loadInt_error_iff, Memory.inBounds_iff]
  constructor
  · rintro (⟨-, hk⟩ | ⟨hb, hc, -⟩)
    · simp at hk
    · exact ⟨a.toNat, by omega, by omega, hc⟩
  · rintro ⟨p, rfl, hp, hc⟩
    exact .inr ⟨by omega, hc, rfl⟩

/-- An operand cell that does not load fails the operand in both modes. -/
theorem State.readOperand_error_of_loadInt {s : State} {i : Nat} {k : FailKind} (h : s.loadInt (s.pc + i) = .error k)
    (m : Mode) : s.readOperand i m = .error k := by
  cases m with
  | immediate => exact s.readOperand_immediate i ▸ h
  | position => rw [State.readOperand_position, h]; rfl

theorem State.writeTarget_error_of_loadInt {s : State} {i : Nat} {k : FailKind}
    (h : s.loadInt (s.pc + i) = .error k) : s.writeTarget i = .error k := by
  rw [State.writeTarget, h]
  rfl

/-- Operand `n` of an instruction, of mode `m` if it is read, meets POISON: in its operand cell, or in the cell that
one addresses. -/
def State.OperandPoisoned (s : State) (n : Nat) (m : Option Mode) : Prop :=
  ∃ p : Nat, p < s.mem.size ∧ s.mem.get p = .poison ∧
    ((p : Int) = s.pc + n ∨ (m = some .position ∧ s.mem.get (s.pc + n).toNat = .val (p : Int)))

theorem State.operandPoisoned_of_loadInt {s : State} {n : Nat} (m : Option Mode)
    (h : s.loadInt (s.pc + n) = .error .memoryCorrupted) : s.OperandPoisoned n m := by
  obtain ⟨p, ha, hp, hc⟩ := (s.loadInt_memoryCorrupted_iff _).1 h
  exact ⟨p, hp, hc, .inl ha⟩

theorem State.operandPoisoned_of_readOperand {s : State} {n : Nat} {m : Mode}
    (h : s.readOperand n m = .error .memoryCorrupted) : s.OperandPoisoned n (some m) := by
  cases m with
  | immediate => exact State.operandPoisoned_of_loadInt _ (s.readOperand_immediate n ▸ h)
  | position =>
    cases hr : s.loadInt (s.pc + n) with
    | error k =>
      obtain rfl : k = .memoryCorrupted :=
        Except.error.inj ((State.readOperand_error_of_loadInt hr _).symm.trans h)
      exact State.operandPoisoned_of_loadInt _ hr
    | ok raw =>
      rw [State.readOperand_position, hr] at h
      obtain ⟨p, rfl, hp, hc⟩ := (s.loadInt_memoryCorrupted_iff raw).1 h
      exact ⟨p, hp, hc, .inr ⟨rfl, ((s.loadInt_ok_iff ..).1 hr).2⟩⟩

/-- A destination is never dereferenced, so only its operand cell can be the POISON. -/
theorem State.operandPoisoned_of_writeTarget {s : State} {n : Nat} (m : Option Mode)
    (h : s.writeTarget n = .error .memoryCorrupted) : s.OperandPoisoned n m := by
  cases hr : s.loadInt (s.pc + n) with
  | error k =>
    obtain rfl : k = .memoryCorrupted := Except.error.inj ((State.writeTarget_error_of_loadInt hr).symm.trans h)
    exact State.operandPoisoned_of_loadInt m hr
  | ok raw =>
    by_cases hb : s.mem.inBounds raw = true <;>
      simp [State.writeTarget, hr, hb, bind, Except.bind, pure, Except.pure] at h

/-! ### Why an instruction fails -/

theorem State.kind_of_finish_error {s t : State} {k k' : FailKind} (h : s.finish (.error k') = .next t)
    (ht : t.status = .failed k) : k' = k := by
  obtain rfl : s.raise k' = t := by simpa [State.finish] using h
  simpa using ht

/-- Format F4 fails at the first of its four parts that fails. -/
theorem State.readReadStore_failed {s t : State} {i : Instr} {a b : Mode} {alu : Int → Int → Except FailKind Int}
    {k : FailKind} (h : s.readReadStore i a b alu = .next t) (hs : s.status = .running) (ht : t.status = .failed k) :
    s.readOperand 1 a = .error k ∨ s.readOperand 2 b = .error k ∨ s.writeTarget 3 = .error k ∨
    ∃ x y, alu x y = .error k := by
  cases ha : s.readOperand 1 a with
  | error k' =>
    rw [State.readReadStore, ha] at h
    exact .inl (congrArg _ (State.kind_of_finish_error h ht))
  | ok x =>
    cases hb : s.readOperand 2 b with
    | error k' =>
      rw [State.readReadStore, ha, hb] at h
      exact .inr (.inl (congrArg _ (State.kind_of_finish_error h ht)))
    | ok y =>
      cases hd : s.writeTarget 3 with
      | error k' =>
        rw [State.readReadStore, ha, hb, hd] at h
        exact .inr (.inr (.inl (congrArg _ (State.kind_of_finish_error h ht))))
      | ok d =>
        cases hr : alu x y with
        | error k' =>
          simp only [State.readReadStore, ha, hb, hd, hr, bind, Except.bind] at h
          exact .inr (.inr (.inr ⟨x, y, State.kind_of_finish_error h ht ▸ hr⟩))
        | ok r =>
          rw [State.readReadStore_ok i ha hb hd hr] at h
          injection h with h
          simp [← h, hs] at ht

/-- A jump fails only where one of its operands does. -/
theorem State.jumpOn_failed {s u : State} {i : Instr} {a b : Mode} {target : Int → Int → Option Int} {k : FailKind}
    (h : s.jumpOn i a b target = .next u) (hs : s.status = .running) (hu : u.status = .failed k) :
    s.readOperand 1 a = .error k ∨ s.readOperand 2 b = .error k := by
  cases ha : s.readOperand 1 a with
  | error k' =>
    rw [State.jumpOn, ha] at h
    exact .inl (congrArg _ (State.kind_of_finish_error h hu))
  | ok t =>
    cases hb : s.readOperand 2 b with
    | error k' =>
      rw [State.jumpOn, ha, hb] at h
      exact .inr (congrArg _ (State.kind_of_finish_error h hu))
    | ok g =>
      rw [State.jumpOn_ok i target ha hb] at h
      injection h with h
      simp [← h, hs] at hu

/-- What a failure of kind `k` of an instruction comes from: a read operand (operand `n + 1` has the mode
`i.readModes[n]`), the destination, or a result out of range. -/
inductive FailCause (s : State) (i : Instr) : FailKind → Prop where
  | read {k : FailKind} (n : Nat) (m : Mode) (hm : i.readModes[n]? = some m) (h : s.readOperand (n + 1) m = .error k) :
      FailCause s i k
  | write {k : FailKind} (n : Nat) (hn : n + 1 < i.oplen) (h : s.writeTarget (n + 1) = .error k) : FailCause s i k
  | overflow : FailCause s i .arithmeticOverflow

theorem checkRange_error {cfg : Config} {v : Int} {k : FailKind} (h : checkRange cfg v = .error k) :
    k = .arithmeticOverflow := by
  unfold checkRange at h
  split at h
  · simp at h
  · exact (Except.error.inj h).symm

/-- An instruction ends in Failed only for one of these causes, and with its kind. -/
theorem exec_failCause {s t : State} {i : Instr} {k : FailKind} (h : exec i s = .next t) (hs : s.status = .running)
    (ht : t.status = .failed k) : FailCause s i k := by
  have f4 {j : Instr} {a b : Mode} {alu : Int → Int → Except FailKind Int} (hm : j.readModes = [a, b])
      (hl : j.oplen = 4) (halu : ∀ x y, alu x y = .error k → k = .arithmeticOverflow)
      (h : s.readReadStore j a b alu = .next t) : FailCause s j k := by
    obtain h | h | h | ⟨x, y, h⟩ := State.readReadStore_failed h hs ht
    · exact .read 0 a (by simp [hm]) h
    · exact .read 1 b (by simp [hm]) h
    · exact .write 2 (by simp [hl]) h
    · exact halu x y h ▸ .overflow
  have jump {j : Instr} {a b : Mode} {target : Int → Int → Option Int} (hm : j.readModes = [a, b])
      (h : s.jumpOn j a b target = .next t) : FailCause s j k := by
    obtain h | h := State.jumpOn_failed h hs ht
    · exact .read 0 a (by simp [hm]) h
    · exact .read 1 b (by simp [hm]) h
  cases i with
  | add | mul => exact f4 rfl rfl (fun _ _ => checkRange_error) h
  | lessThan => exact f4 (alu := fun x y => .ok (lessThanResult x y)) rfl rfl (fun _ _ hr => nomatch hr) h
  | equals => exact f4 (alu := fun x y => .ok (equalsResult x y)) rfl rfl (fun _ _ hr => nomatch hr) h
  | jumpIfTrue | jumpIfFalse => exact jump rfl h
  | input w =>
    obtain ⟨k', hd, rfl⟩ | ⟨d, -, -, rfl⟩ | ⟨d, tok, rest, -, -, rfl⟩ := execInput_cases h
    · obtain rfl : k' = k := by simpa using ht
      exact .write 0 (by simp [Instr.oplen]) hd
    · simp [hs] at ht
    · simp [hs] at ht
  | output a =>
    obtain ⟨k', ha, rfl⟩ | ⟨v, -, rfl⟩ := execOutput_cases h
    · obtain rfl : k' = k := by simpa using ht
      exact .read 0 a rfl ha
    · simp [hs] at ht
  | halt =>
    injection h with h
    simp [← h] at ht

/-- MemoryCorrupted has one cause, a POISON that one of the instruction's operands meets. -/
theorem FailCause.operandPoisoned {s : State} {i : Instr} (h : FailCause s i .memoryCorrupted) :
    ∃ n, n + 1 < i.oplen ∧ s.OperandPoisoned (n + 1) i.readModes[n]? := by
  cases h with
  | read n m hm h =>
    obtain ⟨hn, -⟩ := List.getElem?_eq_some_iff.1 hm
    exact ⟨n, lt_of_le_of_lt hn i.readModes_length_lt, hm ▸ State.operandPoisoned_of_readOperand h⟩
  | write n hn h => exact ⟨n, hn, State.operandPoisoned_of_writeTarget _ h⟩

/-- An engine step that fails with MemoryCorrupted is one of an instruction: the decoder has no such failure. -/
theorem engineStep_memoryCorrupted {s t : State} (h : engineStep s = .next t) (hs : s.status = .running)
    (ht : t.status = .failed .memoryCorrupted) :
    ∃ c i, s.fetch = .ok c ∧ decode c = .instr i ∧ FailCause s i .memoryCorrupted := by
  obtain ⟨hn, -⟩ | ⟨-, -, rfl⟩ | ⟨c, k, -, -, hd, rfl⟩ | ⟨c, i, -, hf, hd, he⟩ := engineStep_cases h
  · exact absurd hs hn
  · simp at ht
  · obtain rfl : k = .memoryCorrupted := by simpa using ht
    simpa using decode_fail_kind hd
  · exact ⟨c, i, hf, hd, exec_failCause he hs ht⟩

/-- An instruction of format F4 that keeps the engine running leaves an integer at its destination. -/
theorem State.readReadStore_get_of_running {s t : State} {i : Instr} {a b : Mode}
    {alu : Int → Int → Except FailKind Int} {d : Nat} (h : s.readReadStore i a b alu = .next t)
    (ht : t.status = .running) (hd : s.writeTarget 3 = .ok d) : ∃ r, t.mem.get d = .val r := by
  obtain ⟨k, rfl⟩ | ⟨x, y, d', r, -, -, hd', -, rfl⟩ := State.readReadStore_cases h
  · simp at ht
  · obtain rfl : d = d' := Except.ok.inj (hd.symm.trans hd')
    exact ⟨r, by simp⟩

/-! ### An Output that fails -/

theorem execOutput_error {s : State} {a : Mode} {k : FailKind} (h : s.readOperand 1 a = .error k) :
    execOutput a s = .next (s.raise k) := by
  rw [execOutput, h]
  rfl

end Sys2Proof.Machine

/-! ### The statements -/

/-- Settles O24: an Input takes the head of the queue, and no other step removes a token (41_io.md R117). -/
theorem onlyInputRemovesTokens : Obligations.OnlyInputRemovesTokens :=
  ⟨fun w _ _ _ _ hd hq => ⟨_, execInput_ok w hd hq, by simp, by simp⟩, fun _ _ => step_inQ_cases⟩

/-- Settles O25: the resolver fails on POISON wherever it loads it, and nothing else raises MemoryCorrupted
(41_io.md R120). -/
theorem malformedTokenFailsAtUse : Obligations.MalformedTokenFailsAtUse := by
  refine ⟨fun w s d tok rest hd hq hp => ?_, fun s i p ha hp hc => ?_, fun s i p q ha hp hc hq hcq => ?_,
    fun s hs hf => engineStep_of_decode_fail hs hf rfl, fun s t hs h ht => ?_,
    fun s t i d _ hi hd _ ht h => ?_, fun s w d tok rest v _ hd hq hp hv => ?_⟩
  · exact ⟨_, execInput_ok w hd hq, by simp [tokenCell_of_parse_none hp], rfl, rfl⟩
  · have hload := (s.loadInt_memoryCorrupted_iff (s.pc + i)).2 ⟨p, ha, hp, hc⟩
    exact ⟨State.readOperand_error_of_loadInt hload, State.writeTarget_error_of_loadInt hload⟩
  · rw [State.readOperand_position, State.loadInt_of_get ha hp hc]
    exact (s.loadInt_memoryCorrupted_iff q).2 ⟨q, rfl, hq, hcq⟩
  · obtain ⟨c, j, hf, hd, hcause⟩ := engineStep_memoryCorrupted h hs ht
    obtain ⟨n, hn, p, hp, hc, hat⟩ := hcause.operandPoisoned
    exact ⟨c, j, n + 1, p, hf, hd, Nat.le_add_left .., hn, hp, hc, hat⟩
  · have stored : ∃ r, t.mem.get d = .val r := by
      obtain ⟨a, b, w, rfl | rfl | rfl | rfl⟩ := hi
      · exact State.readReadStore_get_of_running (i := .add a b w) h ht hd
      · exact State.readReadStore_get_of_running (i := .mul a b w) h ht hd
      · exact State.readReadStore_get_of_running (i := .lessThan a b w) h ht hd
      · exact State.readReadStore_get_of_running (i := .equals a b w) h ht hd
    obtain ⟨r, hr⟩ := stored
    simp [hr]
  · exact ⟨_, execInput_ok w hd hq, by simp [tokenCell_of_inRange hp hv]⟩

/-- Settles O26: both branches of an Output, and the words of opcode 4 by their mode digit (41_io.md R111). -/
theorem outputEmitsOperand : Obligations.OutputEmitsOperand := by
  refine ⟨fun a s v ha => execOutput_ok ha, fun a s k ha => ⟨State.readOperand_error_kind ha, execOutput_error ha⟩,
    rfl, rfl, fun m hm hm' => ?_⟩
  rw [decode_nat, decodeWord_invalidOperandMode_iff, digit_two]
  exact .inl (by omega)

end

section
/-! PROOFS. The comparison family: what LT and EQ store, what else they leave alone, how they fail and their words. -/

open Sys2Proof Sys2Proof.Machine

namespace Sys2Proof

/-- The words of the six instructions that read two operands, when one of the two mode digits is no mode
(30_encoding.md R84). -/
theorem decode_wordOf_fail {op m1 m2 : Nat} (m3 : Nat)
    (hop : op = 1 ∨ op = 2 ∨ op = 5 ∨ op = 6 ∨ op = 7 ∨ op = 8) (h1 : m1 < 10) (h2 : m2 < 10)
    (h : 2 ≤ m1 ∨ 2 ≤ m2) : decode (.val (wordOf op m1 m2 m3 : Int)) = .fail .invalidOperandMode := by
  have hlt : op < 100 := by omega
  rw [decode_nat, decodeWord_invalidOperandMode_iff, digit2_wordOf hlt h1, digit3_wordOf hlt h1 h2]
  have hfield : wordOf op m1 m2 m3 % 100 = op := opcodeField_wordOf hlt m1 m2 m3
  rw [hfield]
  exact .inr ⟨hop, h⟩

theorem decode_encode {i : Instr} (h : i.wellFormed = true) : decode (.val (encode i : Int)) = .instr i :=
  (decode_nat _).trans (decodeWord_encode h)

end Sys2Proof

namespace Sys2Proof.Machine

/-! ### The compare gates -/

theorem lessThanResult_of_lt {x y : Int} (h : x < y) : lessThanResult x y = 1 := if_pos h

theorem lessThanResult_of_le {x y : Int} (h : y ≤ x) : lessThanResult x y = 0 := if_neg (Int.not_lt.2 h)

theorem equalsResult_of_eq {x y : Int} (h : x = y) : equalsResult x y = 1 := if_pos h

theorem equalsResult_of_ne {x y : Int} (h : x ≠ y) : equalsResult x y = 0 := if_neg h

/-! ### Format F4 -/

/-- The next state of an instruction that stores at `d` and falls through: all that it leaves unchanged. -/
theorem State.store_sequence_frame (s : State) (d : Nat) (c : Cell) (n : Nat) :
    let t := (s.store d c).sequence n none
    Memory.SameOutside d s.mem t.mem ∧ t.pc = s.pc + n ∧ t.status = s.status ∧ t.inQ = s.inQ ∧ t.out = s.out ∧
      s.SameSetting t :=
  ⟨s.mem.sameOutside_set d c, rfl, rfl, rfl, rfl, rfl, rfl, rfl, rfl⟩

/-- The first operand that does not resolve is the failure, whatever the ALU computes (60_exceptions.md R163). -/
theorem State.readReadStore_error {s : State} {a b : Mode} {k : FailKind} (i : Instr)
    (alu : Int → Int → Except FailKind Int)
    (h : s.readOperand 1 a = .error k ∨
      (∃ x, s.readOperand 1 a = .ok x ∧ s.readOperand 2 b = .error k) ∨
      ∃ x y, s.readOperand 1 a = .ok x ∧ s.readOperand 2 b = .ok y ∧ s.writeTarget 3 = .error k) :
    (k = .outOfBounds ∨ k = .memoryCorrupted) ∧ s.readReadStore i a b alu = .next (s.raise k) := by
  obtain ha | ⟨x, ha, hb⟩ | ⟨x, y, ha, hb, hd⟩ := h
  · exact ⟨State.readOperand_error_kind ha, by rw [State.readReadStore, ha]; rfl⟩
  · exact ⟨State.readOperand_error_kind hb, by rw [State.readReadStore, ha, hb]; rfl⟩
  · exact ⟨State.writeTarget_error_kind hd, by rw [State.readReadStore, ha, hb, hd]; rfl⟩

end Sys2Proof.Machine

/-! ### The statements -/

/-- Settles O15: LT is of format F4 with an ALU that never fails, and its words are those of opcode 7
(43_compare.md R140). -/
theorem lessThanStoresZeroOrOne : Obligations.LessThanStoresZeroOrOne := by
  refine ⟨fun a b w s x y d ha hb hd => ?_,
    fun a b w s k h => State.readReadStore_error (.lessThan a b w) _ h,
    fun m1 m2 m3 h1 h2 h3 => ⟨fun h => ?_, fun a b ha hb => ?_⟩⟩
  · exact ⟨_, State.readReadStore_ok (.lessThan a b w) ha hb hd rfl, fun h => by simp [lessThanResult_of_lt h],
      fun h => by simp [lessThanResult_of_le h], s.store_sequence_frame ..⟩
  · exact decode_wordOf_fail m3 (by decide) h1 h2 h
  · exact ha ▸ hb ▸ decode_encode (i := .lessThan a b m3) (decide_eq_true h3)

/-- Settles O16: EQ is of format F4 with an ALU that never fails, and its words are those of opcode 8
(43_compare.md R141). -/
theorem equalsStoresZeroOrOne : Obligations.EqualsStoresZeroOrOne := by
  refine ⟨fun a b w s x y d ha hb hd => ?_,
    fun a b w s k h => State.readReadStore_error (.equals a b w) _ h,
    fun m1 m2 m3 h1 h2 h3 => ⟨fun h => ?_, fun a b ha hb => ?_⟩⟩
  · exact ⟨_, State.readReadStore_ok (.equals a b w) ha hb hd rfl, fun h => by simp [equalsResult_of_eq h],
      fun h => by simp [equalsResult_of_ne h], s.store_sequence_frame ..⟩
  · exact decode_wordOf_fail m3 (by decide) h1 h2 h
  · exact ha ▸ hb ▸ decode_encode (i := .equals a b m3) (decide_eq_true h3)

end

section
/-! PROOFS. The decoder and the encoder: the illegal words, the ignored digits, the round trips and assembled lines. -/

open Sys2Proof Sys2Proof.Machine

namespace Sys2Proof

/-! ### The illegal words -/

theorem decodeWord_unrecognizedOpcode_iff (w : Nat) :
    decodeWord w = .fail .unrecognizedOpcode ↔ w % 100 = 0 ∨ (9 ≤ w % 100 ∧ w % 100 ≤ 98) := by
  unfold decodeWord opcodeField
  split
  case h_3 he | h_9 he => simp [he]
  case h_4 he => simp [he, decodeOneRead_fail_iff]
  case h_10 =>
    simp only [imp_false] at *
    simp only [true_iff]
    omega
  all_goals
    rename_i he
    simp [he, decodeTwoReads_fail_iff]

theorem decode_unrecognizedOpcode_iff (c : Cell) :
    decode c = .fail .unrecognizedOpcode ↔
      c = .poison ∨ ∃ w : Int, c = .val w ∧ (w < 0 ∨ w % 100 = 0 ∨ (9 ≤ w % 100 ∧ w % 100 ≤ 98)) := by
  cases c with
  | poison => simp [decode]
  | val w =>
    by_cases hw : w < 0
    · simp [decode, hw]
    · obtain ⟨n, rfl⟩ := Int.eq_ofNat_of_zero_le (not_lt.1 hw)
      rw [decode_nat, decodeWord_unrecognizedOpcode_iff]
      simp only [reduceCtorEq, false_or, Cell.val.injEq, exists_eq_left']
      omega

/-! ### The digits a word is made of -/

theorem digit_lt (w k : Nat) : digit w k < 10 := Nat.mod_lt _ (by decide)

/-- A multiple of `10 ^ n` leaves the digits below `n` alone. -/
theorem digit_add_mul_pow {k n : Nat} (h : k < n) (w m : Nat) : digit (w + 10 ^ n * m) k = digit w k := by
  obtain ⟨j, rfl⟩ := Nat.exists_eq_add_of_lt h
  have e : 10 ^ (k + j + 1) * m = 10 ^ k * (10 * (10 ^ j * m)) := by ring
  rw [digit, digit, e, Nat.add_mul_div_left _ _ (by positivity), Nat.add_mul_mod_self_left]

theorem opcodeField_add_mul_pow {n : Nat} (h : 2 ≤ n) (w m : Nat) :
    opcodeField (w + 10 ^ n * m) = opcodeField w := by
  obtain ⟨j, rfl⟩ := Nat.exists_eq_add_of_le h
  have e : 10 ^ (2 + j) * m = 100 * (10 ^ j * m) := by ring
  rw [opcodeField, opcodeField, e, Nat.add_mul_mod_self_left]

theorem wordOf_opcodeField (w : Nat) : wordOf (opcodeField w) 0 0 0 = w % 10 ^ 2 := by
  simp [wordOf, opcodeField]

theorem wordOf_one_digit (w : Nat) : wordOf (opcodeField w) (digit w 2) 0 0 = w % 10 ^ 3 := by
  unfold wordOf opcodeField digit
  omega

theorem wordOf_two_digits (w : Nat) : wordOf (opcodeField w) (digit w 2) (digit w 3) 0 = w % 10 ^ 4 := by
  unfold wordOf opcodeField digit
  omega

theorem wordOf_three_digits (w : Nat) :
    wordOf (opcodeField w) (digit w 2) (digit w 3) (digit w 4) = w % 10 ^ 5 := by
  unfold wordOf opcodeField digit
  omega

/-! ### Words and instructions -/

/-- A word decodes as the opcode field and the digits up to the instruction's last mode digit say. -/
theorem decodeWord_of_digits {w w' : Nat} {i : Instr} (h : decodeWord w = .instr i)
    (hop : opcodeField w' = opcodeField w) (hd : ∀ k, k ≤ i.oplen → digit w' k = digit w k) :
    decodeWord w' = .instr i := by
  unfold decodeWord at h ⊢
  rw [hop]
  split at h <;> rename_i he
  case h_3 | h_9 =>
    obtain rfl := Decoded.instr.inj h
    simp only [Instr.oplen] at hd
    simp [hd]
  case h_4 =>
    obtain ⟨a, h1, rfl⟩ := (decodeOneRead_instr_iff ..).1 h
    exact (decodeOneRead_instr_iff ..).2 ⟨a, (hd 2 (Nat.le_refl 2)).trans h1, rfl⟩
  case h_10 => simp at h
  all_goals
    obtain ⟨a, b, h1, h2, rfl⟩ := (decodeTwoReads_instr_iff ..).1 h
    simp only [Instr.oplen] at hd
    exact (decodeTwoReads_instr_iff ..).2
      ⟨a, b, (hd 2 (by decide)).trans h1, (hd 3 (by decide)).trans h2, by simp [hd]⟩

theorem decodeWord_wellFormed {w : Nat} {i : Instr} (h : decodeWord w = .instr i) : i.wellFormed = true := by
  have hw (k : Nat) : writeDigitOk (digit w k) = true := decide_eq_true (digit_lt w k)
  obtain ⟨a, b, -, -, -, rfl⟩ | ⟨a, b, -, -, -, rfl⟩ | ⟨-, rfl⟩ | ⟨a, -, -, rfl⟩ | ⟨a, b, -, -, -, rfl⟩ |
    ⟨a, b, -, -, -, rfl⟩ | ⟨a, b, -, -, -, rfl⟩ | ⟨a, b, -, -, -, rfl⟩ | ⟨-, rfl⟩ := decodeWord_instr_cases h
  · exact hw 4
  · exact hw 4
  · exact hw 2
  · rfl
  · rfl
  · rfl
  · exact hw 4
  · exact hw 4
  · rfl

/-- The encoder puts back the opcode field and the mode digits, and no digit above them. -/
theorem encode_of_decodeWord {w : Nat} {i : Instr} (h : decodeWord w = .instr i) :
    encode i = w % 10 ^ (i.oplen + 1) := by
  have h0 := wordOf_opcodeField w
  have h1 := wordOf_one_digit w
  have h2 := wordOf_two_digits w
  have h3 := wordOf_three_digits w
  unfold opcodeField at h0 h1 h2 h3
  obtain ⟨a, b, ho, ha, hb, rfl⟩ | ⟨a, b, ho, ha, hb, rfl⟩ | ⟨ho, rfl⟩ | ⟨a, ho, ha, rfl⟩ | ⟨a, b, ho, ha, hb, rfl⟩ |
    ⟨a, b, ho, ha, hb, rfl⟩ | ⟨a, b, ho, ha, hb, rfl⟩ | ⟨a, b, ho, ha, hb, rfl⟩ | ⟨ho, rfl⟩ := decodeWord_instr_cases h
  · rwa [ho, ha, hb] at h3
  · rwa [ho, ha, hb] at h3
  · rwa [ho] at h1
  · rwa [ho, ha] at h1
  · rwa [ho, ha, hb] at h2
  · rwa [ho, ha, hb] at h2
  · rwa [ho, ha, hb] at h3
  · rwa [ho, ha, hb] at h3
  · rwa [ho] at h0

theorem decodeWord_halt {w : Nat} (h : w % 100 = 99) : decodeWord w = .instr .halt := by
  simp [decodeWord, opcodeField, h]

theorem Instr.one_le_oplen (i : Instr) : 1 ≤ i.oplen := by
  cases i <;> simp [Instr.oplen]

/-! ### Assembled lines -/

/-- A line is assembled with write digit 0, which is a digit. -/
theorem AsmLine.wellFormed_of_instr? {l : AsmLine} {i : Instr} (h : l.instr? = some i) : i.wellFormed = true := by
  cases l with
  | word n => simp [AsmLine.instr?] at h
  | _ => obtain rfl := Option.some.inj h; rfl

theorem AsmLine.assemble_of_instr? {l : AsmLine} {i : Instr} (h : l.instr? = some i) :
    l.assemble = (encode i : Int) :: l.operandCells := by
  cases l with
  | word n => simp [AsmLine.instr?] at h
  | _ => obtain rfl := Option.some.inj h; rfl

/-- The operand cells and the instruction word together fill the length of the instruction. -/
theorem AsmLine.length_operandCells {l : AsmLine} {i : Instr} (h : l.instr? = some i) :
    l.operandCells.length + 1 = i.oplen := by
  cases l with
  | word n => simp [AsmLine.instr?] at h
  | _ => obtain rfl := Option.some.inj h; rfl

end Sys2Proof

/-! ### The statements -/

/-- Settles O5: the digits of the encoded word are read back one by one (30_encoding.md R80, R87). -/
theorem decodeEncodeRoundTrip : Obligations.DecodeEncodeRoundTrip := fun _ h => decode_encode h

/-- Settles O1: the decoder's default answer, and a decoding failure raised by the engine (30_encoding.md R83). -/
theorem illegalWordsFailUnrecognized : Obligations.IllegalWordsFailUnrecognized := fun c =>
  ⟨decode_unrecognizedOpcode_iff c, fun _ hs hf hc =>
    engineStep_of_decode_fail hs hf ((decode_unrecognizedOpcode_iff c).2 hc)⟩

/-- Settles O3: the decoder looks at digits 0 to `oplen` only, and those do not change (30_encoding.md section 2). -/
theorem highDigitsAreIgnored : Obligations.HighDigitsAreIgnored := by
  intro w k i h
  rw [decode_nat] at h ⊢
  have hlen := i.one_le_oplen
  exact decodeWord_of_digits h (opcodeField_add_mul_pow (by omega) w k) fun j hj =>
    digit_add_mul_pow (by omega) w k

/-- Settles O6: a decoded instruction holds the digits of its word (30_encoding.md R80, R87). -/
theorem encodeDecodeDropsOnlyIgnoredDigits : Obligations.EncodeDecodeDropsOnlyIgnoredDigits := by
  intro w i h
  rw [decode_nat] at h
  exact ⟨decodeWord_wellFormed h, encode_of_decodeWord h⟩

/-- Settles O8: the word of a line is the encoding of its instruction (30_encoding.md R89). -/
theorem assembledLineDecodes : Obligations.AssembledLineDecodes := by
  intro l i h
  have hcells := AsmLine.assemble_of_instr? h
  refine ⟨encode i, hcells, decode_encode (AsmLine.wellFormed_of_instr? h), ?_⟩
  rw [hcells, List.length_cons, AsmLine.length_operandCells h]

/-- Settles O7: nine closed words, evaluated (95_test_vectors.md L2-1). -/
theorem specWordsDecode : Obligations.SpecWordsDecode := ⟨rfl, rfl, rfl, rfl, rfl, rfl, rfl, rfl, rfl⟩

end

section
/-! PROOFS. The invariant of the block: canonical memory, values in range and a queue within its depth, kept by every
turn. -/

open Sys2Proof Sys2Proof.Machine

namespace Sys2Proof.Machine

/-! ### Values in range -/

theorem inRange_iff (cfg : Config) (v : Int) :
    inRange cfg v = true ↔
      ∀ n, cfg.wordBits = some n → -((2 ^ (n - 1) : Nat) : Int) ≤ v ∧ v < ((2 ^ (n - 1) : Nat) : Int) := by
  unfold inRange
  cases cfg.wordBits with
  | none => simp
  | some n => simp

/-- 0 and 1 are in every range 00_scope.md R6 allows (43_compare.md R140). -/
theorem inRange_zero_one {cfg : Config} (h : configOk cfg = true) : inRange cfg 0 = true ∧ inRange cfg 1 = true := by
  have bound : ∀ n, cfg.wordBits = some n → 1 < 2 ^ (n - 1) := by
    intro n hn
    have hn8 : 8 ≤ n := by
      simp only [configOk, hn, Bool.and_eq_true, decide_eq_true_eq] at h
      exact h.1
    exact Nat.one_lt_two_pow (by omega)
  constructor <;> refine (inRange_iff ..).2 fun n hn => ?_ <;> have := bound n hn <;> omega

theorem cellInRange_blank {cfg : Config} (h : configOk cfg = true) : cellInRange cfg Memory.blank = true :=
  (inRange_zero_one h).1

theorem cellInRange_tokenCell (cfg : Config) (tok : Token) : cellInRange cfg (tokenCell cfg tok) = true := by
  cases hp : parseToken cfg tok with
  | none => simp [tokenCell, hp, cellInRange]
  | some v => by_cases hv : inRange cfg v = true <;> simp [tokenCell, hp, hv, cellInRange]

/-! ### The queue within its depth -/

theorem queueFits_tail {cfg : Config} {tok : Token} {rest : List Token} (h : queueFits cfg (tok :: rest) = true) :
    queueFits cfg rest = true := by
  cases hd : cfg.inputDepth with
  | none => simp [queueFits, hd]
  | some d =>
    simp only [queueFits, hd, List.length_cons, decide_eq_true_eq] at h ⊢
    omega

/-- The queue takes a token exactly when it still fits with that token in it (41_io.md R116). -/
theorem State.inReady_iff (s : State) (tok : Token) :
    s.inReady = true ↔ queueFits s.cfg (s.inQ ++ [tok]) = true := by
  cases hd : s.cfg.inputDepth <;> simp [State.inReady, queueFits, hd]

/-! ### The invariant -/

/-- The invariant speaks of memory, queue, output and parameters only. -/
theorem State.Inv.congr {s t : State} (h : s.Inv) (hc : t.cfg = s.cfg) (hm : t.mem = s.mem) (ho : t.out = s.out)
    (hq : t.inQ = s.inQ) : t.Inv where
  config := hc ▸ h.config
  memory := hm ▸ h.memory
  cells := by rw [hc, hm]; exact h.cells
  outputs := by rw [hc, ho]; exact h.outputs
  queue := by rw [hc, hq]; exact h.queue

theorem State.Inv.store {s : State} (h : s.Inv) {d : Nat} (hd : d < s.mem.size) {c : Cell}
    (hc : cellInRange s.cfg c = true) : (s.store d c).Inv where
  config := h.config
  memory := Memory.wf_set c h.memory hd
  cells a := by
    by_cases ha : a = d
    · simp [ha, hc]
    · simpa [Memory.get_set_ne _ _ ha] using h.cells a
  outputs := h.outputs
  queue := h.queue

theorem State.Inv.emit {s : State} (h : s.Inv) {v : Int} (hv : inRange s.cfg v = true) : (s.emit v).Inv where
  config := h.config
  memory := h.memory
  cells := h.cells
  outputs u hu := by
    obtain hu | rfl : u ∈ s.out ∨ u = v := by simpa using hu
    · exact h.outputs u hu
    · exact hv
  queue := h.queue

theorem State.Inv.withQueue {s : State} (h : s.Inv) {q : List Token} (hq : queueFits s.cfg q = true) :
    (s.withQueue q).Inv where
  config := h.config
  memory := h.memory
  cells := h.cells
  outputs := h.outputs
  queue := hq

theorem State.Inv.pushToken {s : State} (h : s.Inv) {tok : Token} (hr : s.inReady = true) : (s.pushToken tok).Inv :=
  h.withQueue ((s.inReady_iff tok).1 hr)

theorem State.Inv.restart {s : State} (h : s.Inv) {image : List Int} (hi : ∀ v ∈ image, inRange s.cfg v = true) :
    (s.restart image).Inv where
  config := h.config
  memory := Memory.wf_load image
  cells a := by
    rw [State.restart_mem, State.restart_cfg, Memory.get_load]
    cases ha : image[a]? with
    | none => exact cellInRange_blank h.config
    | some v => exact hi v (List.mem_of_getElem? ha)
  outputs := by simp
  queue := h.queue

/-! ### What keeps it -/

theorem Effect.keeps_inv {s t : State} {i : Instr} (h : Effect s i t) (hs : s.Inv) : t.Inv := by
  cases h with
  | fail | wait | jump | fallThrough | halt => exact hs.congr rfl rfl rfl rfl
  | store d hd r hr =>
    have hin : inRange s.cfg r = true := by
      obtain hr | rfl | rfl := hr
      · exact hr
      · exact (inRange_zero_one hs.config).1
      · exact (inRange_zero_one hs.config).2
    exact (hs.store (State.writeTarget_lt hd) (c := .val r) hin).congr rfl rfl rfl rfl
  | input w hi d hd tok rest hq =>
    have hrest := hs.withQueue (queueFits_tail (hq ▸ hs.queue))
    exact (hrest.store (State.writeTarget_lt hd) (cellInRange_tokenCell s.cfg tok)).congr rfl rfl rfl rfl
  | output a hi v hv => exact (hs.emit (State.readOperand_inRange hv hs.cells)).congr rfl rfl rfl rfl

theorem engineStep_keeps_inv {s t : State} (h : engineStep s = .next t) (hs : s.Inv) : t.Inv := by
  obtain ⟨-, rfl⟩ | ⟨-, -, rfl⟩ | ⟨c, k, -, -, -, rfl⟩ | ⟨c, i, -, -, -, he⟩ := engineStep_cases h
  · exact hs
  · exact hs.congr rfl rfl rfl rfl
  · exact hs.congr rfl rfl rfl rfl
  · exact (exec_effect he).keeps_inv hs

theorem State.Inv.taken {s : State} (h : s.Inv) : s.taken.Inv := h.congr (by simp) (by simp) (by simp) (by simp)

theorem State.taken_inReady (s : State) : s.taken.inReady = s.inReady := by
  simp [State.inReady]

theorem step_keeps_inv {s t : State} (h : step s = .next t) (hs : s.Inv) : t.Inv := by
  obtain ⟨-, he⟩ | ⟨tok, -, hr, rfl⟩ | ⟨tok, -, -, he⟩ | ⟨image, -, hi, rfl⟩ := step_cases h
  · exact engineStep_keeps_inv he (hs.taken.congr rfl rfl rfl rfl)
  · exact hs.taken.pushToken (s.taken_inReady.trans hr)
  · exact engineStep_keeps_inv he (hs.congr (by simp) (by simp) (by simp) (by simp))
  · exact hs.taken.restart (by simpa using hi)

/-! ### The canonical form of memory -/

/-- A canonical memory lists exactly its cells that are not blank. -/
theorem Memory.mem_cells_iff {m : Memory} (h : m.wf = true) (e : Nat × Cell) :
    e ∈ m.cells ↔ m.get e.1 = e.2 ∧ e.2 ≠ Memory.blank := by
  obtain ⟨hsorted, hcells⟩ := m.wf_iff.1 h
  constructor
  · intro he
    refine ⟨?_, (hcells e he).2⟩
    obtain ⟨l₁, l₂, hl⟩ := List.append_of_mem he
    have hbefore : ∀ x ∈ l₁, x.1 < e.1 := by
      rw [hl, List.pairwise_append] at hsorted
      exact fun x hx => hsorted.2.2 x hx e (List.mem_cons_self ..)
    have hlookup : m.cells.lookup e.1 = some e.2 :=
      List.lookup_eq_some_iff.2 ⟨l₁, l₂, hl, fun x hx => by simpa using (hbefore x hx).ne'⟩
    simp [Memory.get, hlookup]
  · rintro ⟨hget, hne⟩
    unfold Memory.get at hget
    cases hl : m.cells.lookup e.1 with
    | none => exact absurd (by simpa [hl] using hget.symm) hne
    | some c =>
      obtain rfl : c = e.2 := by simpa [hl] using hget
      obtain ⟨l₁, l₂, hl, -⟩ := List.lookup_eq_some_iff.1 hl
      simp [hl]

/-- Two canonical memories list the same cells in the same order when they read the same. -/
theorem Memory.eq_of_get_eq {m m' : Memory} (h : m.wf = true) (h' : m'.wf = true) (hsize : m.size = m'.size)
    (hget : ∀ a, m.get a = m'.get a) : m = m' := by
  have nodup {n : Memory} (hn : n.wf = true) : n.cells.Nodup :=
    (n.wf_iff.1 hn).1.imp fun hlt heq => (heq ▸ hlt).ne rfl
  have hperm : m.cells.Perm m'.cells :=
    (List.perm_ext_iff_of_nodup (nodup h) (nodup h')).2 fun e => by
      rw [Memory.mem_cells_iff h, Memory.mem_cells_iff h', hget]
  have hcells : m.cells = m'.cells :=
    hperm.eq_of_pairwise (fun _ _ _ _ hlt hgt => absurd hlt hgt.asymm) (m.wf_iff.1 h).1 (m'.wf_iff.1 h').1
  cases m
  cases m'
  simp_all

end Sys2Proof.Machine

/-! ### The statements -/

/-- Settles O42: the invariant goes through every effect of an instruction and through the host's two turns
(10_state.md section 1, 41_io.md section 4). -/
theorem stepKeepsInvariant : Obligations.StepKeepsInvariant := fun _ _ hs h => step_keeps_inv h hs

/-- Settles O43: power-on is over the empty program, with the defaults of 00_scope.md R6. -/
theorem powerOnMeetsInvariant : Obligations.PowerOnMeetsInvariant where
  config := rfl
  memory := rfl
  cells := Memory.get_inRange (by decide) rfl
  outputs := by decide
  queue := rfl

/-- Settles O50: a canonical memory is determined by what it reads as. -/
theorem equalReadsAreEqualMemories : Obligations.EqualReadsAreEqualMemories := fun _ _ => Memory.eq_of_get_eq

end

section
/-! PROOFS. The operand resolver check by check, and each instruction on its own: what it completes with and what it
fails with. -/

open Sys2Proof Sys2Proof.Machine

namespace Sys2Proof.Machine

/-! ### The operand resolver, check by check -/

theorem Memory.inBounds_false_iff (m : Memory) (a : Int) : m.inBounds a = false ↔ ¬ (0 ≤ a ∧ a < m.size) := by
  rw [← Memory.inBounds_iff, Bool.not_eq_true]

theorem State.loadInt_outside {s : State} {a : Int} (h : ¬ (0 ≤ a ∧ a < s.mem.size)) :
    s.loadInt a = .error .outOfBounds :=
  (s.loadInt_error_iff a _).2 (.inl ⟨(s.mem.inBounds_false_iff a).2 h, rfl⟩)

theorem State.loadInt_poison {s : State} {a : Int} (h : 0 ≤ a ∧ a < s.mem.size) (hc : s.mem.get a.toNat = .poison) :
    s.loadInt a = .error .memoryCorrupted :=
  (s.loadInt_error_iff a _).2 (.inr ⟨(s.mem.inBounds_iff a).2 h, hc, rfl⟩)

theorem State.loadInt_val {s : State} {a v : Int} (h : 0 ≤ a ∧ a < s.mem.size) (hc : s.mem.get a.toNat = .val v) :
    s.loadInt a = .ok v :=
  (s.loadInt_ok_iff a v).2 ⟨(s.mem.inBounds_iff a).2 h, hc⟩

/-- A destination whose operand cell loads is checked against the bounds of memory, and no more (30_encoding.md R78). -/
theorem State.writeTarget_of_loadInt {s : State} {i : Nat} {raw : Int} (h : s.loadInt (s.pc + i) = .ok raw) :
    s.writeTarget i = if s.mem.inBounds raw then .ok raw.toNat else .error .outOfBounds := by
  rw [State.writeTarget, h]
  rfl

theorem State.writeTarget_outside {s : State} {i : Nat} {raw : Int} (h : s.loadInt (s.pc + i) = .ok raw)
    (hb : ¬ (0 ≤ raw ∧ raw < s.mem.size)) : s.writeTarget i = .error .outOfBounds := by
  rw [State.writeTarget_of_loadInt h, (s.mem.inBounds_false_iff raw).2 hb]
  rfl

theorem State.writeTarget_inside {s : State} {i : Nat} {raw : Int} (h : s.loadInt (s.pc + i) = .ok raw)
    (hb : 0 ≤ raw ∧ raw < s.mem.size) : s.writeTarget i = .ok raw.toNat := by
  rw [State.writeTarget_of_loadInt h, if_pos ((s.mem.inBounds_iff raw).2 hb)]

theorem engineStep_of_fetch_error {s : State} {k : FailKind} (hs : s.status = .running) (hf : s.fetch = .error k) :
    engineStep s = .next (s.raise k) := by
  simp [engineStep, hs, hf]

/-- A pc outside memory is an error at the fetch (10_state.md section 2). -/
theorem engineStep_of_pc_outside {s : State} (hs : s.status = .running) (h : ¬ (0 ≤ s.pc ∧ s.pc < s.mem.size)) :
    engineStep s = .next (s.raise .outOfBounds) :=
  engineStep_of_fetch_error hs ((s.fetch_error_iff _).2 ⟨(s.mem.inBounds_false_iff s.pc).2 h, rfl⟩)

/-! ### The formats of the instructions -/

/-- ADD, MUL, LT and EQ are of format F4. -/
theorem exec_eq_readReadStore {i : Instr} {a b : Mode} {w : Nat}
    (hi : i = .add a b w ∨ i = .mul a b w ∨ i = .lessThan a b w ∨ i = .equals a b w) (s : State) :
    ∃ alu, exec i s = s.readReadStore i a b alu := by
  obtain rfl | rfl | rfl | rfl := hi <;> exact ⟨_, rfl⟩

/-- JT and JF are jumps. -/
theorem exec_eq_jumpOn {i : Instr} {a b : Mode} (hi : i = .jumpIfTrue a b ∨ i = .jumpIfFalse a b) (s : State) :
    ∃ target, exec i s = s.jumpOn i a b target := by
  obtain rfl | rfl := hi <;> exact ⟨_, rfl⟩

/-- Format F4 when every operand resolves and the ALU fails. -/
theorem State.readReadStore_alu_error {s : State} {a b : Mode} {alu : Int → Int → Except FailKind Int} {x y : Int}
    {d : Nat} {k : FailKind} (i : Instr) (ha : s.readOperand 1 a = .ok x) (hb : s.readOperand 2 b = .ok y)
    (hd : s.writeTarget 3 = .ok d) (hr : alu x y = .error k) : s.readReadStore i a b alu = .next (s.raise k) := by
  simp [State.readReadStore, ha, hb, hd, hr, bind, Except.bind, State.finish, State.raise]

/-- The first operand of a jump that does not resolve is the failure, taken or not (30_encoding.md R82). -/
theorem State.jumpOn_error {s : State} {a b : Mode} {k : FailKind} (i : Instr) (target : Int → Int → Option Int)
    (h : s.readOperand 1 a = .error k ∨ ∃ x, s.readOperand 1 a = .ok x ∧ s.readOperand 2 b = .error k) :
    s.jumpOn i a b target = .next (s.raise k) := by
  obtain ha | ⟨x, ha, hb⟩ := h
  · rw [State.jumpOn, ha]
    rfl
  · rw [State.jumpOn, ha, hb]
    rfl

theorem execInput_error {s : State} {k : FailKind} (w : Nat) (h : s.writeTarget 1 = .error k) :
    execInput w s = .next (s.raise k) := by
  rw [execInput, h]
  rfl

/-- Operand 1 is resolved first (60_exceptions.md R163). -/
theorem exec_operand_one_error {s : State} {i : Instr} {a : Mode} {k : FailKind} (hi : i.readModes[0]? = some a)
    (h : s.readOperand 1 a = .error k) : exec i s = .next (s.raise k) := by
  cases i with
  | add | mul | lessThan | equals =>
    obtain rfl := Option.some.inj hi
    exact (State.readReadStore_error _ _ (.inl h)).2
  | jumpIfTrue | jumpIfFalse =>
    obtain rfl := Option.some.inj hi
    exact State.jumpOn_error _ _ (.inl h)
  | output =>
    obtain rfl := Option.some.inj hi
    exact execOutput_error h
  | input | halt => simp [Instr.readModes] at hi

/-- Operand 2 is resolved next, a jump's target too (60_exceptions.md R163). -/
theorem exec_operand_two_error {s : State} {i : Instr} {a b : Mode} {x : Int} {k : FailKind}
    (hi : i.readModes = [a, b]) (ha : s.readOperand 1 a = .ok x) (hb : s.readOperand 2 b = .error k) :
    exec i s = .next (s.raise k) := by
  cases i with
  | add | mul | lessThan | equals =>
    injection hi with hi₁ hi
    injection hi with hi₂
    subst hi₁ hi₂
    exact (State.readReadStore_error _ _ (.inr (.inl ⟨x, ha, hb⟩))).2
  | jumpIfTrue | jumpIfFalse =>
    injection hi with hi₁ hi
    injection hi with hi₂
    subst hi₁ hi₂
    exact State.jumpOn_error _ _ (.inr ⟨x, ha, hb⟩)
  | output | input | halt => simp [Instr.readModes] at hi

/-- No arm of `exec` faults or refuses. -/
theorem exec_next (i : Instr) (s : State) : ∃ t, exec i s = .next t := by
  cases i with
  | halt => exact ⟨_, rfl⟩
  | _ => exact s.finish_next _

/-! ### The results -/

theorem checkRange_of_inRange {cfg : Config} {v : Int} (h : inRange cfg v = true) : checkRange cfg v = .ok v :=
  if_pos h

theorem checkRange_of_not_inRange {cfg : Config} {v : Int} (h : inRange cfg v = false) :
    checkRange cfg v = .error .arithmeticOverflow := by
  simp [checkRange, h]

/-- An unbounded word holds every result. -/
theorem wordBits_of_checkRange_error {cfg : Config} {v : Int} {k : FailKind} (h : checkRange cfg v = .error k) :
    ∃ n, cfg.wordBits = some n := by
  cases hw : cfg.wordBits with
  | none => simp [checkRange, inRange, hw] at h
  | some n => exact ⟨n, rfl⟩

theorem tokenCell_of_not_inRange {cfg : Config} {tok : Token} {v : Int} (h : parseToken cfg tok = some v)
    (hv : inRange cfg v = false) : tokenCell cfg tok = .poison := by
  simp [tokenCell, h, hv]

/-- JT and JF with both operands resolved: the sequencer gets the target or the length 3. -/
theorem exec_jumpIfTrue_ok {s : State} {a b : Mode} {x g : Int} (ha : s.readOperand 1 a = .ok x)
    (hb : s.readOperand 2 b = .ok g) : exec (.jumpIfTrue a b) s = .next (s.sequence 3 (jumpIfTrueTarget x g)) :=
  State.jumpOn_ok _ _ ha hb

theorem exec_jumpIfFalse_ok {s : State} {a b : Mode} {x g : Int} (ha : s.readOperand 1 a = .ok x)
    (hb : s.readOperand 2 b = .ok g) : exec (.jumpIfFalse a b) s = .next (s.sequence 3 (jumpIfFalseTarget x g)) :=
  State.jumpOn_ok _ _ ha hb

/-- A state whose pc has come to a cell inside memory fetches that cell. -/
theorem State.fetch_of_pc {s : State} {d : Nat} (hpc : s.pc = d) (hd : d < s.mem.size) :
    s.fetch = .ok (s.mem.get d) := by
  rw [State.fetch_ok_iff, Memory.inBounds_iff, hpc]
  exact ⟨by omega, rfl⟩

/-- A store at the address the pc falls through to is what the next fetch reads. -/
theorem State.fetch_store_sequence {s : State} {d n : Nat} (c : Cell) (hd : d < s.mem.size)
    (hpc : (d : Int) = s.pc + n) : ((s.store d c).sequence n none).fetch = .ok c := by
  rw [State.fetch_of_pc (s := (s.store d c).sequence n none) (d := d) hpc.symm hd]
  simp

/-! ### Where an overflow comes from -/

theorem FailKind.ne_arithmeticOverflow {k : FailKind} (h : k = .outOfBounds ∨ k = .memoryCorrupted) :
    k ≠ .arithmeticOverflow := by
  obtain rfl | rfl := h <;> decide

/-- Of the parts of format F4 only the ALU raises ArithmeticOverflow. -/
theorem State.readReadStore_overflow {s t : State} {i : Instr} {a b : Mode} {alu : Int → Int → Except FailKind Int}
    (h : s.readReadStore i a b alu = .next t) (hs : s.status = .running) (ht : t.status = .failed .arithmeticOverflow) :
    ∃ x y, alu x y = .error .arithmeticOverflow := by
  obtain h | h | h | h := State.readReadStore_failed h hs ht
  · exact absurd rfl (FailKind.ne_arithmeticOverflow (State.readOperand_error_kind h))
  · exact absurd rfl (FailKind.ne_arithmeticOverflow (State.readOperand_error_kind h))
  · exact absurd rfl (FailKind.ne_arithmeticOverflow (State.writeTarget_error_kind h))
  · exact h

theorem State.jumpOn_no_overflow {s t : State} {i : Instr} {a b : Mode} {target : Int → Int → Option Int}
    (h : s.jumpOn i a b target = .next t) (hs : s.status = .running) : t.status ≠ .failed .arithmeticOverflow := by
  intro ht
  obtain h | h := State.jumpOn_failed h hs ht <;>
    exact FailKind.ne_arithmeticOverflow (State.readOperand_error_kind h) rfl

/-- Only an ADD or a MUL ends in ArithmeticOverflow, and only with a finite word (40_arithmetic.md R102). -/
theorem exec_overflow {s t : State} {i : Instr} (h : exec i s = .next t) (hs : s.status = .running)
    (ht : t.status = .failed .arithmeticOverflow) :
    (∃ n, s.cfg.wordBits = some n) ∧ ∃ a b w, i = .add a b w ∨ i = .mul a b w := by
  cases i with
  | add a b w =>
    obtain ⟨x, y, hr⟩ := State.readReadStore_overflow h hs ht
    exact ⟨wordBits_of_checkRange_error hr, a, b, w, .inl rfl⟩
  | mul a b w =>
    obtain ⟨x, y, hr⟩ := State.readReadStore_overflow h hs ht
    exact ⟨wordBits_of_checkRange_error hr, a, b, w, .inr rfl⟩
  | lessThan =>
    obtain ⟨x, y, hr⟩ := State.readReadStore_overflow (alu := fun x y => .ok (lessThanResult x y)) h hs ht
    cases hr
  | equals =>
    obtain ⟨x, y, hr⟩ := State.readReadStore_overflow (alu := fun x y => .ok (equalsResult x y)) h hs ht
    cases hr
  | jumpIfTrue | jumpIfFalse => exact absurd ht (State.jumpOn_no_overflow h hs)
  | input w =>
    obtain ⟨k, hd, rfl⟩ | ⟨d, -, -, rfl⟩ | ⟨d, tok, rest, -, -, rfl⟩ := execInput_cases h
    · exact absurd (by simpa using ht) (FailKind.ne_arithmeticOverflow (State.writeTarget_error_kind hd))
    · simp [hs] at ht
    · simp [hs] at ht
  | output a =>
    obtain ⟨k, ha, rfl⟩ | ⟨v, -, rfl⟩ := execOutput_cases h
    · exact absurd (by simpa using ht) (FailKind.ne_arithmeticOverflow (State.readOperand_error_kind ha))
    · simp [hs] at ht
  | halt =>
    injection h with h
    simp [← h] at ht

end Sys2Proof.Machine

/-! ### The statements -/

/-- Settles O10: a load that fails fails the operand, and the second load of position mode comes after the first
(30_encoding.md R77). -/
theorem readOperandFailsInOrder : Obligations.ReadOperandFailsInOrder := by
  refine fun s i => ⟨fun m hp => State.readOperand_error_of_loadInt (State.loadInt_outside hp) m,
    fun m hp hc => State.readOperand_error_of_loadInt (State.loadInt_poison hp hc) m, fun raw hp hc => ?_⟩
  have himm : s.readOperand i .immediate = .ok raw := (s.readOperand_immediate i).trans (State.loadInt_val hp hc)
  rw [State.readOperand_position_of_immediate himm]
  exact ⟨State.loadInt_outside, State.loadInt_poison⟩

/-- Settles O11: one load and one bounds check (30_encoding.md R78). -/
theorem writeTargetFollowsResolver : Obligations.WriteTargetFollowsResolver := fun _ _ =>
  ⟨fun hp => State.writeTarget_error_of_loadInt (State.loadInt_outside hp),
    fun hp hc => State.writeTarget_error_of_loadInt (State.loadInt_poison hp hc),
    fun _ hp hc =>
      ⟨State.writeTarget_outside (State.loadInt_val hp hc), State.writeTarget_inside (State.loadInt_val hp hc)⟩⟩

/-- Settles O12: every access is checked first, and a failed check is the instruction's failure (20_memory.md R54). -/
theorem outOfBoundsAccessFails : Obligations.OutOfBoundsAccessFails := by
  refine ⟨fun s hs h => engineStep_of_pc_outside hs h, fun s i h => ?_, fun s i raw himm h => ?_,
    fun s a b w => ⟨fun ha i hi => ?_, fun x ha hb i hi => ?_, fun x y ha hb hd i hi => ?_, execInput_error w⟩⟩
  · exact ⟨State.readOperand_error_of_loadInt (State.loadInt_outside h),
      State.writeTarget_error_of_loadInt (State.loadInt_outside h)⟩
  · exact ⟨(State.readOperand_position_of_immediate himm).trans (State.loadInt_outside h),
      State.writeTarget_outside ((s.readOperand_immediate i).symm.trans himm) h⟩
  · have hm : i.readModes[0]? = some a := by
      simp only [List.mem_cons, List.not_mem_nil, or_false] at hi
      obtain rfl | rfl | rfl | rfl | rfl | rfl | rfl := hi <;> rfl
    exact exec_operand_one_error hm ha
  · have hm : i.readModes = [a, b] := by
      simp only [List.mem_cons, List.not_mem_nil, or_false] at hi
      obtain rfl | rfl | rfl | rfl | rfl | rfl := hi <;> rfl
    exact exec_operand_two_error hm ha hb
  · obtain ⟨alu, he⟩ := exec_eq_readReadStore (by simpa using hi) s
    exact he.trans (State.readReadStore_error i alu (.inr (.inr ⟨x, y, ha, hb, hd⟩))).2

/-- Settles O13: ADD is of format F4, with a sum that passes the range check (40_arithmetic.md R100). -/
theorem addStoresSum : Obligations.AddStoresSum := fun a b w s _ _ _ ha hb hd hr =>
  ⟨_, State.readReadStore_ok (.add a b w) ha hb hd (checkRange_of_inRange hr), by simp, s.store_sequence_frame ..⟩

/-- Settles O14: MUL is of format F4, with a product that passes the range check (40_arithmetic.md R101). -/
theorem multiplyStoresProduct : Obligations.MultiplyStoresProduct := fun a b w s _ _ _ ha hb hd hr =>
  ⟨_, State.readReadStore_ok (.mul a b w) ha hb hd (checkRange_of_inRange hr), by simp, s.store_sequence_frame ..⟩

/-- Settles O17: the range check is the ALU's failure, before the store (40_arithmetic.md R102). -/
theorem outOfRangeResultFails : Obligations.OutOfRangeResultFails := fun a b w _ _ _ _ ha hb hd =>
  ⟨fun hr => State.readReadStore_alu_error (.add a b w) ha hb hd (checkRange_of_not_inRange hr),
    fun hr => State.readReadStore_alu_error (.mul a b w) ha hb hd (checkRange_of_not_inRange hr)⟩

/-- Settles O19: the four instructions are of format F4, which resolves operands 1, 2 and 3 in that order
(60_exceptions.md R163). -/
theorem firstFailingOperandIsReported : Obligations.FirstFailingOperandIsReported := by
  intro a b w i hi s k h
  obtain ⟨alu, he⟩ := exec_eq_readReadStore hi s
  exact he.trans (State.readReadStore_error i alu h).2

/-- Settles O20: the fetch and the decoder have no such failure, and of the instructions only ADD and MUL
(40_arithmetic.md R102). -/
theorem overflowNeedsFiniteWordAndArithmetic : Obligations.OverflowNeedsFiniteWordAndArithmetic := by
  intro s t hs h ht
  obtain ⟨hn, -⟩ | ⟨-, -, rfl⟩ | ⟨c, k, -, -, hd, rfl⟩ | ⟨c, i, -, hf, hd, he⟩ := engineStep_cases h
  · exact absurd hs hn
  · simp at ht
  · obtain rfl : k = .arithmeticOverflow := by simpa using ht
    simpa using decode_fail_kind hd
  · obtain ⟨⟨n, hn⟩, a, b, w, hi⟩ := exec_overflow he hs ht
    exact ⟨n, a, b, w, c, hn, hf, hi.imp (fun e => hd.trans (congrArg _ e)) fun e => hd.trans (congrArg _ e)⟩

/-- Settles O21: an Input takes the head of the queue and stores its cell (41_io.md R110). -/
theorem inputStoresOldestToken : Obligations.InputStoresOldestToken := by
  intro w s d tok rest hd hq
  refine ⟨_, execInput_ok w hd hq, fun v hp hv => ?_, fun v hp hv => ?_, fun hp => ?_,
    s.mem.sameOutside_set d _, rfl, rfl, rfl, rfl, rfl, rfl, rfl, rfl⟩
  · simp [tokenCell_of_inRange hp hv]
  · simp [tokenCell_of_not_inRange hp hv]
  · simp [tokenCell_of_parse_none hp]

/-- Settles O22: the destination is resolved before the queue is looked at (41_io.md R110). -/
theorem inputFailsBeforeTakingToken : Obligations.InputFailsBeforeTakingToken := fun w _ _ => execInput_error w

/-- Settles O30: both branches of the sequencer's answer to JT (42_control.md R130). -/
theorem jumpIfTrueSetsPc : Obligations.JumpIfTrueSetsPc := by
  intro a b s x g ha hb
  rw [exec_jumpIfTrue_ok ha hb]
  constructor <;> intro hx <;> simp [jumpIfTrueTarget, hx, State.sequence]

/-- Settles O31: both branches of the sequencer's answer to JF (42_control.md R131). -/
theorem jumpIfFalseSetsPc : Obligations.JumpIfFalseSetsPc := by
  intro a b s x g ha hb
  rw [exec_jumpIfFalse_ok ha hb]
  constructor <;> intro hx <;> simp [jumpIfFalseTarget, hx, State.sequence]

/-- Settles O32: both jumps resolve test and target before they look at the test (42_control.md R130, R131). -/
theorem jumpsResolveBothOperands : Obligations.JumpsResolveBothOperands := by
  intro a b i hi s k h
  obtain ⟨target, he⟩ := exec_eq_jumpOn hi s
  exact he.trans (State.jumpOn_error i target h)

/-- Settles O35: the pc falls through to the cell just stored (20_memory.md section 4). -/
theorem nextFetchSeesStore : Obligations.NextFetchSeesStore := by
  refine ⟨fun a b w s x y d ha hb hd hpc => ?_, fun w s d tok rest hd hq hpc => ?_⟩
  · have sees (r : Int) : ((s.store d (.val r)).sequence 4 none).fetch = .ok (.val r) :=
      State.fetch_store_sequence _ (State.writeTarget_lt hd) hpc
    exact ⟨fun hr => ⟨_, State.readReadStore_ok (.add a b w) ha hb hd (checkRange_of_inRange hr), sees _⟩,
      fun hr => ⟨_, State.readReadStore_ok (.mul a b w) ha hb hd (checkRange_of_inRange hr), sees _⟩,
      ⟨_, State.readReadStore_ok (.lessThan a b w) ha hb hd rfl, sees (lessThanResult x y)⟩,
      ⟨_, State.readReadStore_ok (.equals a b w) ha hb hd rfl, sees (equalsResult x y)⟩⟩
  · exact ⟨_, execInput_ok w hd hq, State.fetch_store_sequence (s := s.withQueue rest) _ (State.writeTarget_lt hd) hpc⟩

/-- Settles O37: an instruction ends in its own next state or in the failure it raised, which is a next state too
(60_exceptions.md R161). -/
theorem everyInstructionAnswersNext : Obligations.EveryInstructionAnswersNext := exec_next

end

section
/-! PROOFS. The engine's step: where it leaves the pc, what it changes besides, and what it never looks at. -/

open Sys2Proof Sys2Proof.Machine

namespace Sys2Proof

theorem Instr.oplen_le_four (i : Instr) : i.oplen ≤ 4 := by
  cases i <;> simp [Instr.oplen]

end Sys2Proof

namespace Sys2Proof.Machine

/-! ### Which rule an engine step follows -/

theorem engineStep_of_decode {s : State} {c : Cell} {i : Instr} (hs : s.status = .running) (hf : s.fetch = .ok c)
    (hd : decode c = .instr i) : engineStep s = exec i s := by
  simp [engineStep, hs, hf, hd]

/-- In a terminal status the engine has no step (60_exceptions.md R166). -/
theorem engineStep_of_not_running {s : State} (h : s.status ≠ .running) : engineStep s = .next s := by
  unfold engineStep
  split
  · exact absurd ‹_› h
  · rfl
  · rfl

/-- An engine step changes nothing, fails, or has an effect of the instruction at pc. -/
theorem engineStep_effect {s t : State} (h : engineStep s = .next t) :
    t = s ∨ (∃ k, t = s.raise k) ∨
    ∃ c i, s.status = .running ∧ s.fetch = .ok c ∧ decode c = .instr i ∧ Effect s i t := by
  obtain ⟨-, rfl⟩ | ⟨-, -, rfl⟩ | ⟨c, k, -, -, -, rfl⟩ | ⟨c, i, hs, hf, hd, he⟩ := engineStep_cases h
  · exact .inl rfl
  · exact .inr (.inl ⟨_, rfl⟩)
  · exact .inr (.inl ⟨_, rfl⟩)
  · exact .inr (.inr ⟨c, i, hs, hf, hd, exec_effect he⟩)

/-! ### The effect on each field -/

theorem Effect.size_mem {s t : State} {i : Instr} (h : Effect s i t) : t.mem.size = s.mem.size := by
  cases h <;> rfl

theorem Effect.sameSetting {s t : State} {i : Instr} (h : Effect s i t) : s.SameSetting t := by
  cases h <;> exact ⟨rfl, rfl, rfl, rfl⟩

/-- Only an Output emits, and it does not write. -/
theorem Effect.out_cases {s t : State} {i : Instr} (h : Effect s i t) :
    t.out = s.out ∨
    (t.mem = s.mem ∧ ∃ a v, i = .output a ∧ s.readOperand 1 a = .ok v ∧ t.out = s.out ++ [v]) := by
  cases h with
  | fail | wait | store | input | jump | fallThrough | halt => exact .inl rfl
  | output a hi v hv => exact .inr ⟨rfl, a, v, hi, hv, rfl⟩

theorem Effect.pc_cases {s t : State} {i : Instr} (h : Effect s i t) :
    t.pc = s.pc ∨ t.pc = s.pc + i.oplen ∨ ∃ b, s.readOperand 2 b = .ok t.pc := by
  cases h with
  | fail | wait | halt => exact .inl rfl
  | store | input | output | fallThrough => exact .inr (.inl rfl)
  | jump b g hg => exact .inr (.inr ⟨b, hg⟩)

/-- An instruction ends the run by a Halt or a failure only. -/
theorem Effect.of_not_running {s t : State} {i : Instr} (h : Effect s i t) (hs : s.status = .running)
    (ht : t.status ≠ .running) : t = s.halt ∨ ∃ k, t = s.raise k := by
  cases h with
  | fail k => exact .inr ⟨k, rfl⟩
  | halt => exact .inl rfl
  | wait | store | input | output | jump | fallThrough => exact absurd hs ht

/-! ### The effect of an engine step -/

theorem engineStep_size_mem {s t : State} (h : engineStep s = .next t) : t.mem.size = s.mem.size := by
  obtain rfl | ⟨k, rfl⟩ | ⟨c, i, -, -, -, he⟩ := engineStep_effect h
  · rfl
  · rfl
  · exact he.size_mem

theorem engineStep_sameSetting {s t : State} (h : engineStep s = .next t) : s.SameSetting t := by
  obtain rfl | ⟨k, rfl⟩ | ⟨c, i, -, -, -, he⟩ := engineStep_effect h
  · exact ⟨rfl, rfl, rfl, rfl⟩
  · exact ⟨rfl, rfl, rfl, rfl⟩
  · exact he.sameSetting

/-- The step from `s` emits `v`, the operand of the Output at pc. -/
def State.Emits (s : State) (v : Int) : Prop :=
  ∃ c a, s.status = .running ∧ s.fetch = .ok c ∧ decode c = .instr (.output a) ∧ s.readOperand 1 a = .ok v

theorem engineStep_out_cases {s t : State} (h : engineStep s = .next t) :
    t.out = s.out ∨ (t.mem = s.mem ∧ ∃ v, s.Emits v ∧ t.out = s.out ++ [v]) := by
  obtain rfl | ⟨k, rfl⟩ | ⟨c, i, hs, hf, hd, he⟩ := engineStep_effect h
  · exact .inl rfl
  · exact .inl rfl
  · obtain ho | ⟨hm, a, v, rfl, hv, ho⟩ := he.out_cases
    · exact .inl ho
    · exact .inr ⟨hm, v, ⟨c, a, hs, hf, hd, hv⟩, ho⟩

/-- A step after which the engine does not run changed the status at most. -/
theorem engineStep_of_not_running_after {s t : State} (h : engineStep s = .next t) (ht : t.status ≠ .running) :
    t = s ∨ t = s.halt ∨ ∃ k, t = s.raise k := by
  obtain rfl | hk | ⟨c, i, hs, -, -, he⟩ := engineStep_effect h
  · exact .inl rfl
  · exact .inr (.inr hk)
  · exact .inr (he.of_not_running hs ht)

/-! ### Where an instruction leaves the pc -/

/-- An instruction that keeps the engine running and does not wait falls through or is a jump that is taken. -/
theorem exec_pc_of_running {s t : State} {i : Instr} (h : exec i s = .next t) (ht : t.status = .running)
    (hw : ∀ w, i = .input w → s.inQ ≠ []) :
    t.pc = s.pc + i.oplen ∨
    ∃ a b x g, s.readOperand 1 a = .ok x ∧ s.readOperand 2 b = .ok g ∧ t.pc = g ∧
      ((i = .jumpIfTrue a b ∧ x ≠ 0) ∨ (i = .jumpIfFalse a b ∧ x = 0)) := by
  cases i with
  | add a b w => exact .inl (State.readReadStore_pc_of_running (i := .add a b w) h ht)
  | mul a b w => exact .inl (State.readReadStore_pc_of_running (i := .mul a b w) h ht)
  | lessThan a b w => exact .inl (State.readReadStore_pc_of_running (i := .lessThan a b w) h ht)
  | equals a b w => exact .inl (State.readReadStore_pc_of_running (i := .equals a b w) h ht)
  | input w =>
    obtain ⟨k, -, rfl⟩ | ⟨d, -, hq, rfl⟩ | ⟨d, tok, rest, -, -, rfl⟩ := execInput_cases h
    · simp at ht
    · exact absurd hq (hw w rfl)
    · exact .inl rfl
  | output a =>
    obtain ⟨k, -, rfl⟩ | ⟨v, -, rfl⟩ := execOutput_cases h
    · simp at ht
    · exact .inl rfl
  | jumpIfTrue a b =>
    obtain ⟨k, rfl⟩ | ⟨x, g, ha, hb, rfl⟩ := State.jumpOn_cases h
    · simp at ht
    · by_cases hx : x = 0
      · exact .inl (by simp [jumpIfTrueTarget, hx])
      · exact .inr ⟨a, b, x, g, ha, hb, by simp [jumpIfTrueTarget, hx], .inl ⟨rfl, hx⟩⟩
  | jumpIfFalse a b =>
    obtain ⟨k, rfl⟩ | ⟨x, g, ha, hb, rfl⟩ := State.jumpOn_cases h
    · simp at ht
    · by_cases hx : x = 0
      · exact .inr ⟨a, b, x, g, ha, hb, by simp [jumpIfFalseTarget, hx], .inr ⟨rfl, hx⟩⟩
      · exact .inl (by simp [jumpIfFalseTarget, hx])
  | halt =>
    injection h with h
    simp [← h] at ht

/-! ### What an instruction writes -/

theorem Memory.SameOutside.refl (d : Nat) (m : Memory) : Memory.SameOutside d m m := ⟨rfl, fun _ _ => rfl⟩

theorem State.readReadStore_sameOutside {s t : State} {i : Instr} {a b : Mode} {alu : Int → Int → Except FailKind Int}
    {d : Nat} (h : s.readReadStore i a b alu = .next t) (hd : s.writeTarget 3 = .ok d) :
    Memory.SameOutside d s.mem t.mem := by
  obtain ⟨k, rfl⟩ | ⟨x, y, d', r, -, -, hd', -, rfl⟩ := State.readReadStore_cases h
  · exact .refl d s.mem
  · obtain rfl : d = d' := Except.ok.inj (hd.symm.trans hd')
    exact s.mem.sameOutside_set d (.val r)

theorem execInput_sameOutside {s t : State} {w d : Nat} (h : execInput w s = .next t) (hd : s.writeTarget 1 = .ok d) :
    Memory.SameOutside d s.mem t.mem := by
  obtain ⟨k, -, rfl⟩ | ⟨d', -, -, rfl⟩ | ⟨d', tok, rest, hd', -, rfl⟩ := execInput_cases h
  · exact .refl d s.mem
  · exact .refl d _
  · obtain rfl : d = d' := Except.ok.inj (hd.symm.trans hd')
    exact s.mem.sameOutside_set d _

theorem execInput_mem_of_empty {s t : State} {w : Nat} (h : execInput w s = .next t) (hq : s.inQ = []) :
    t.mem = s.mem := by
  obtain ⟨k, -, rfl⟩ | ⟨d, -, -, rfl⟩ | ⟨d, tok, rest, -, hq', -⟩ := execInput_cases h
  · rfl
  · rfl
  · simp [hq] at hq'

/-- OUT, JT, JF and HALT store nothing. -/
theorem exec_mem_of_no_store {s t : State} {i : Instr} (h : exec i s = .next t)
    (hi : ∃ a b, i = .output a ∨ i = .jumpIfTrue a b ∨ i = .jumpIfFalse a b ∨ i = .halt) : t.mem = s.mem := by
  obtain ⟨a, b, rfl | rfl | rfl | rfl⟩ := hi
  · obtain ⟨k, -, rfl⟩ | ⟨v, -, rfl⟩ := execOutput_cases h <;> rfl
  · obtain ⟨k, rfl⟩ | ⟨x, g, -, -, rfl⟩ := State.jumpOn_cases h <;> rfl
  · obtain ⟨k, rfl⟩ | ⟨x, g, -, -, rfl⟩ := State.jumpOn_cases h <;> rfl
  · injection h with h
    rw [← h, State.halt_mem]

/-! ### Earlier outputs -/

/-- The state with the values `o` emitted before the others. -/
def State.prependOut (s : State) (o : List Int) : State := { s with out := o ++ s.out }

/-- Instructions that agree up to `prependOut` after a check agree with it. -/
theorem State.finish_bind_prependOut {α : Type} {s t : State} {o : List Int} {x : Except FailKind α}
    {f g : α → Except FailKind State} (h : s.finish (x >>= f) = .next t)
    (hfg : ∀ v, s.finish (f v) = .next t → (s.prependOut o).finish (g v) = .next (t.prependOut o)) :
    (s.prependOut o).finish (x >>= g) = .next (t.prependOut o) := by
  cases x with
  | error k =>
    cases h
    rfl
  | ok v => exact hfg v h

theorem State.readReadStore_prependOut {s t : State} {i : Instr} {a b : Mode} {alu : Int → Int → Except FailKind Int}
    (o : List Int) (h : s.readReadStore i a b alu = .next t) :
    (s.prependOut o).readReadStore i a b alu = .next (t.prependOut o) := by
  refine State.finish_bind_prependOut (x := s.readOperand 1 a) h fun x h => ?_
  refine State.finish_bind_prependOut (x := s.readOperand 2 b) h fun y h => ?_
  refine State.finish_bind_prependOut (x := s.writeTarget 3) h fun d h => ?_
  refine State.finish_bind_prependOut (x := alu x y) h fun r h => ?_
  cases h
  rfl

theorem State.jumpOn_prependOut {s t : State} {i : Instr} {a b : Mode} {target : Int → Int → Option Int}
    (o : List Int) (h : s.jumpOn i a b target = .next t) :
    (s.prependOut o).jumpOn i a b target = .next (t.prependOut o) := by
  refine State.finish_bind_prependOut (x := s.readOperand 1 a) h fun x h => ?_
  refine State.finish_bind_prependOut (x := s.readOperand 2 b) h fun g h => ?_
  cases h
  rfl

theorem execOutput_prependOut {s t : State} {a : Mode} (o : List Int) (h : execOutput a s = .next t) :
    execOutput a (s.prependOut o) = .next (t.prependOut o) := by
  refine State.finish_bind_prependOut (x := s.readOperand 1 a) h fun v h => ?_
  cases h
  simp [State.prependOut, State.finish, pure, Except.pure, State.sequence, State.emit]

theorem execInput_prependOut {s t : State} {w : Nat} (o : List Int) (h : execInput w s = .next t) :
    execInput w (s.prependOut o) = .next (t.prependOut o) := by
  refine State.finish_bind_prependOut (x := s.writeTarget 1) h fun d h => ?_
  have hq : (s.prependOut o).inQ = s.inQ := rfl
  rw [hq]
  cases hs : s.inQ with
  | nil =>
    rw [hs] at h
    cases h
    rfl
  | cons tok rest =>
    rw [hs] at h
    cases h
    rfl

/-- No instruction looks at the outputs. -/
theorem exec_prependOut {s t : State} {i : Instr} (o : List Int) (h : exec i s = .next t) :
    exec i (s.prependOut o) = .next (t.prependOut o) := by
  cases i with
  | add a b w => exact State.readReadStore_prependOut (i := .add a b w) o h
  | mul a b w => exact State.readReadStore_prependOut (i := .mul a b w) o h
  | lessThan a b w => exact State.readReadStore_prependOut (i := .lessThan a b w) o h
  | equals a b w => exact State.readReadStore_prependOut (i := .equals a b w) o h
  | jumpIfTrue a b => exact State.jumpOn_prependOut (i := .jumpIfTrue a b) o h
  | jumpIfFalse a b => exact State.jumpOn_prependOut (i := .jumpIfFalse a b) o h
  | input w => exact execInput_prependOut o h
  | output a => exact execOutput_prependOut o h
  | halt =>
    cases h
    rfl

theorem engineStep_prependOut {s t : State} (o : List Int) (h : engineStep s = .next t) :
    engineStep (s.prependOut o) = .next (t.prependOut o) := by
  obtain ⟨hs, rfl⟩ | ⟨hs, hf, rfl⟩ | ⟨c, k, hs, hf, hd, rfl⟩ | ⟨c, i, hs, hf, hd, he⟩ := engineStep_cases h
  · exact engineStep_of_not_running (s := t.prependOut o) hs
  · exact engineStep_of_fetch_error (s := s.prependOut o) hs hf
  · exact engineStep_of_decode_fail (s := s.prependOut o) hs hf hd
  · exact (engineStep_of_decode (s := s.prependOut o) hs hf hd).trans (exec_prependOut o he)

/-! ### The pc under a finite word -/

/-- The pc stays in range when memory lies so far below the bound that falling through cannot pass it. -/
theorem engineStep_pc_inRange {s t : State} {n : Nat} (hinv : s.Inv) (hn : s.cfg.wordBits = some n)
    (hsize : s.mem.size + 4 ≤ 2 ^ (n - 1)) (hpc : inRange s.cfg s.pc = true) (h : engineStep s = .next t) :
    inRange s.cfg t.pc = true := by
  obtain rfl | ⟨k, rfl⟩ | ⟨c, i, -, hf, -, he⟩ := engineStep_effect h
  · exact hpc
  · exact hpc
  · obtain hp | hp | ⟨b, hg⟩ := he.pc_cases
    · rwa [hp]
    · obtain ⟨hlo, hhi⟩ := (s.mem.inBounds_iff s.pc).1 ((s.fetch_ok_iff c).1 hf).1
      have hlen := i.oplen_le_four
      rw [hp, inRange_iff]
      intro n' hn'
      obtain rfl : n = n' := Option.some.inj (hn.symm.trans hn')
      omega
    · exact State.readOperand_inRange hg hinv.cells

end Sys2Proof.Machine

/-! ### The statements -/

/-- Settles O29: no check and no effect of an instruction reads `Out` (41_io.md R112). -/
theorem outputsAreNeverReadBack : Obligations.OutputsAreNeverReadBack := fun _ _ o => engineStep_prependOut o

/-- Settles O33: the decoder looks at the opcode field of a HALT word only (44_halt.md R150). -/
theorem haltWordStopsEngine : Obligations.HaltWordStopsEngine := fun _ w hs hf hw =>
  ⟨rfl, engineStep_of_decode hs hf ((decode_nat w).trans (decodeWord_halt hw))⟩

/-- Settles O34: each format's next pc, the status of a step that ends the run, and the fetch (10_state.md R24). -/
theorem pcSequencing : Obligations.PcSequencing := by
  refine ⟨fun s t c i hs hf hd hw h ht => ?_, fun s t h ht => ?_, fun s => engineStep_of_pc_outside⟩
  · rw [engineStep_of_decode hs hf hd] at h
    exact exec_pc_of_running h ht hw
  · obtain rfl | rfl | ⟨k, rfl⟩ := engineStep_of_not_running_after h ht <;> rfl

/-- Settles O38: a failure is raised on the state the step began with (60_exceptions.md R161). -/
theorem failureChangesOnlyStatus : Obligations.FailureChangesOnlyStatus := by
  intro s t k hs h ht
  obtain rfl | rfl | ⟨k', rfl⟩ := engineStep_of_not_running_after h (by simp [ht])
  · simp [hs] at ht
  · simp at ht
  · obtain rfl : k' = k := by simpa using ht
    rfl

/-- Settles O39: each effect of an instruction, field by field (10_state.md section 7). -/
theorem engineStepBoundsItsEffects : Obligations.EngineStepBoundsItsEffects := by
  intro s t h
  refine ⟨fun c i hs hf hd => ?_, fun k ht => ?_, fun hs => ?_, engineStep_size_mem h, ?_, ?_, ?_,
    engineStep_sameSetting h⟩
  · rw [engineStep_of_decode hs hf hd] at h
    refine ⟨fun a b w d hi ht => ?_, fun w d hi ht => ?_, fun w hi hq => ?_, fun a b hi => ?_⟩
    · obtain ⟨alu, he⟩ := exec_eq_readReadStore hi s
      exact State.readReadStore_sameOutside (he.symm.trans h) ht
    · subst hi
      exact execInput_sameOutside h ht
    · subst hi
      exact execInput_mem_of_empty h hq
    · exact exec_mem_of_no_store h ⟨a, b, hi⟩
  · obtain rfl | rfl | ⟨k', rfl⟩ := engineStep_of_not_running_after h (by simp [ht]) <;> rfl
  · rw [engineStep_of_not_running hs] at h
    injection h with h
    rw [h]
  · exact (engineStep_out_cases h).imp_right fun ⟨_, v, _, ho⟩ => ⟨v, ho⟩
  · exact (engineStep_inQ_cases h).imp_right fun ⟨tok, _, _, hq, _⟩ => ⟨tok, hq⟩
  · obtain ho | ⟨hm, -⟩ := engineStep_out_cases h
    · exact .inr ho
    · exact .inl hm

/-- Settles O49: the pc moves by four cells at most from inside memory, or to a value of memory
(10_state.md R22, R24). -/
theorem pcStaysInRange : Obligations.PcStaysInRange := by
  intro s t n hinv hn hsize hpc h
  obtain ⟨hcfg, -⟩ := engineStep_sameSetting h
  rw [hcfg]
  exact engineStep_pc_inRange hinv hn hsize hpc h

end

section
/-! PROOFS. The turns of engine and host: their order, the wait, pushes and resets, the ports, and the engine's turn
that always comes. -/

open Sys2Proof Sys2Proof.Machine

namespace Sys2Proof.Machine

/-! ### Which rule a turn follows -/

theorem step_of_engine {s : State} (h : s.upcoming = .engine) : step s = engineStep s.taken.started := by
  simp [step, takeTurn, h]

theorem step_of_push {s : State} {tok : Token} (h : s.upcoming = .push tok) (hr : s.inReady = true) :
    step s = .next (s.taken.pushToken tok) := by
  simp [step, takeTurn, h, hr]

theorem step_of_held_push {s : State} {tok : Token} (h : s.upcoming = .push tok) (hr : s.inReady = false) :
    step s = engineStep s.refill.started := by
  simp [step, takeTurn, h, hr]

theorem step_of_reset {s : State} {image : List Int} (h : s.upcoming = .reset image)
    (hi : ∀ v ∈ image, inRange s.cfg v = true) : step s = .next (s.taken.restart image) := by
  have hall : image.all (inRange s.cfg) = true := List.all_eq_true.2 hi
  simp only [step, takeTurn, h, hall, if_true]

theorem step_of_bad_reset {s : State} {image : List Int} (h : s.upcoming = .reset image)
    (hi : ∃ v ∈ image, inRange s.cfg v = false) : step s = .refused .imageOutOfRange := by
  have hall : image.all (inRange s.cfg) = false := by simpa using hi
  simp only [step, takeTurn, h, hall]
  rfl

theorem all_inRange_or (cfg : Config) (image : List Int) :
    (∀ v ∈ image, inRange cfg v = true) ∨ ∃ v ∈ image, inRange cfg v = false := by
  by_cases h : ∀ v ∈ image, inRange cfg v = true
  · exact .inl h
  · exact .inr (by simpa using h)

theorem engineStep_next (s : State) : ∃ t, engineStep s = .next t := by
  by_cases hs : s.status = .running
  · cases hf : s.fetch with
    | error k => exact ⟨_, engineStep_of_fetch_error hs hf⟩
    | ok c =>
      cases hd : decode c with
      | fail k => exact ⟨_, engineStep_of_decode_fail hs hf hd⟩
      | instr i =>
        rw [engineStep_of_decode hs hf hd]
        exact exec_next i s
  · exact ⟨s, engineStep_of_not_running hs⟩

/-- A step answers a next state, or it is a reset with an image out of range and is refused. -/
theorem step_answers (s : State) :
    (∃ t, step s = .next t) ∨
    ∃ image, s.upcoming = .reset image ∧ (∃ v ∈ image, inRange s.cfg v = false) ∧
      step s = .refused .imageOutOfRange := by
  cases hu : s.upcoming with
  | engine =>
    rw [step_of_engine hu]
    exact .inl (engineStep_next _)
  | push tok =>
    cases hr : s.inReady with
    | true => exact .inl ⟨_, step_of_push hu hr⟩
    | false =>
      rw [step_of_held_push hu hr]
      exact .inl (engineStep_next _)
  | reset image =>
    obtain hi | hi := all_inRange_or s.cfg image
    · exact .inl ⟨_, step_of_reset hu hi⟩
    · exact .inr ⟨image, rfl, hi, step_of_bad_reset hu hi⟩

/-- A turn that is no reset is an engine step, from the state before but for the turns to come and `fresh`, or a
push. -/
theorem step_of_no_reset {s t : State} (h : step s = .next t) (hr : ∀ image, s.upcoming ≠ .reset image) :
    (∃ r f, engineStep { s with schedule := r, future := f, fresh := false } = .next t) ∨
    ∃ tok, t = s.taken.pushToken tok := by
  obtain he | ⟨tok, -, -, rfl⟩ | he | ⟨image, hu, -, -⟩ := step_cases h
  · exact .inl (step_engine_start (.inl he))
  · exact .inr ⟨tok, rfl⟩
  · exact .inl (step_engine_start (.inr he))
  · exact absurd hu (hr image)

theorem step_cfg {s t : State} (h : step s = .next t) : t.cfg = s.cfg := by
  obtain ⟨r, f, he⟩ | ⟨tok, rfl⟩ | ⟨image, rfl⟩ := step_agents h
  · exact (engineStep_sameSetting he).1
  · exact s.taken_cfg
  · exact s.taken_cfg

theorem step_size_mem {s t : State} (h : step s = .next t) (hr : ∀ image, s.upcoming ≠ .reset image) :
    t.mem.size = s.mem.size := by
  obtain ⟨r, f, he⟩ | ⟨tok, rfl⟩ := step_of_no_reset h hr
  · exact (engineStep_size_mem he).trans rfl
  · exact congrArg Memory.size s.taken_mem

theorem State.finished_iff (s : State) : s.finished = true ↔ s.status ≠ .running := by
  cases hs : s.status <;> simp [State.finished, hs]

/-! ### The listed turns -/

theorem State.upcoming_of_free {s : State} {n : Nat} {x : Turn} {rest : List Turn} (h : s.schedule = [])
    (hf : s.future = .free n) (hx : Config.laterTurns n ++ [.engine] = x :: rest) :
    s.upcoming = x ∧ s.taken = { s with schedule := rest, future := .free (n + 1) } := by
  simp [State.upcoming, State.taken, State.refill_of_free h hf, hx, State.withSchedule]

/-- The turns to come do not depend on the queue. -/
theorem State.refill_pushToken (s : State) (tok : Token) : (s.pushToken tok).refill = s.refill.pushToken tok := by
  simp only [State.refill, State.pushToken]
  split <;> rfl

theorem State.upcoming_pushToken (s : State) (tok : Token) : (s.pushToken tok).upcoming = s.upcoming := by
  rw [State.upcoming, State.upcoming, State.refill_pushToken, State.pushToken_schedule]

theorem State.taken_pushToken (s : State) (tok : Token) : (s.pushToken tok).taken = s.taken.pushToken tok := by
  rw [State.taken, State.taken, State.refill_pushToken]
  rfl

/-- A state with the listed turns of `s.refill` has its next turn. -/
theorem State.upcoming_of_refill_schedule {s t : State} (hs : s.upcoming ≠ .engine)
    (ht : t.schedule = s.refill.schedule) : t.upcoming = s.upcoming :=
  (State.upcoming_of_listed (ht.trans (State.refill_schedule_of_host hs))).1

/-! ### The wait -/

theorem execInput_wait {s : State} {d : Nat} (w : Nat) (hd : s.writeTarget 1 = .ok d) (hq : s.inQ = []) :
    execInput w s = .next s := by
  simp [execInput, hd, hq, bind, Except.bind, pure, Except.pure, State.finish]

/-- The engine that finds no token does nothing (41_io.md R118). -/
theorem engineStep_of_inputFindsNoToken {s : State} (h : s.inputFindsNoToken = true) : engineStep s = .next s := by
  obtain ⟨hs, hq, c, w, d, hf, hd, ht⟩ := s.inputFindsNoToken_iff.1 h
  exact (engineStep_of_decode hs hf hd).trans (execInput_wait w ht hq)

theorem State.inputFindsNoToken_congr {s t : State} (hs : t.status = s.status) (hm : t.mem = s.mem) (hp : t.pc = s.pc)
    (hq : t.inQ = s.inQ) : t.inputFindsNoToken = s.inputFindsNoToken := by
  unfold State.inputFindsNoToken
  rw [hs, hq, State.fetch_congr hm hp, State.writeTarget_congr hm hp]

/-- The turn of an awaiting engine leaves it awaiting. -/
theorem State.awaiting_engine_turn {s u : State} (h : s.awaiting = true) (hs : u.status = s.status)
    (hm : u.mem = s.mem) (hp : u.pc = s.pc) (hq : u.inQ = s.inQ) (hf : u.fresh = false) :
    engineStep u = .next u ∧ u.awaiting = true := by
  have hu : u.inputFindsNoToken = true := (State.inputFindsNoToken_congr hs hm hp hq).trans (s.awaiting_iff.1 h).1
  exact ⟨engineStep_of_inputFindsNoToken hu, u.awaiting_iff.2 ⟨hu, .inr hf⟩⟩

theorem State.awaiting_taken_started {s : State} (h : s.awaiting = true) :
    engineStep s.taken.started = .next s.taken.started ∧ s.taken.started.awaiting = true :=
  State.awaiting_engine_turn h (by simp) (by simp) (by simp) (by simp) rfl

theorem State.awaiting_refill_started {s : State} (h : s.awaiting = true) :
    engineStep s.refill.started = .next s.refill.started ∧ s.refill.started.awaiting = true :=
  State.awaiting_engine_turn h (by simp) (by simp) (by simp) (by simp) rfl

/-- Once it has a token the Input at pc completes with it (41_io.md R110). -/
theorem State.inputFindsNoToken_fed {s u : State} {tok : Token} {rest : List Token} (h : s.inputFindsNoToken = true)
    (hs : u.status = s.status) (hm : u.mem = s.mem) (hp : u.pc = s.pc) (hq : u.inQ = tok :: rest) :
    ∃ d, s.writeTarget 1 = .ok d ∧
      engineStep u = .next (((u.withQueue rest).store d (tokenCell u.cfg tok)).sequence 2 none) := by
  obtain ⟨hrun, -, c, w, d, hf, hd, ht⟩ := s.inputFindsNoToken_iff.1 h
  have hdispatch : engineStep u = execInput w u :=
    engineStep_of_decode (hs.trans hrun) ((State.fetch_congr hm hp).trans hf) hd
  refine ⟨d, ht, hdispatch.trans (execInput_ok w ?_ hq)⟩
  rw [State.writeTarget_congr hm hp, ht]

/-- `waiting_o` is 1 exactly while the engine awaits input (10_state.md R26). -/
theorem State.waitingPort_iff (s : State) :
    s.waitingPort = 1 ↔ s.status = .running ∧ s.inQ = [] ∧ (s.cfg.waitsFromReset = true ∨ s.fresh = false) ∧
      ∃ c w d, s.fetch = .ok c ∧ decode c = .instr (.input w) ∧ s.writeTarget 1 = .ok d := by
  rw [State.waitingPort_eq_one_iff, State.awaiting_iff, State.inputFindsNoToken_iff]
  tauto

/-- Between a reset and the engine's first turn the machine that follows 70_reset_and_hazards.md R191 does not wait. -/
theorem State.awaiting_of_fresh {s : State} (hw : s.cfg.waitsFromReset = false) (hf : s.fresh = true) :
    s.awaiting = false ∧ s.waitingPort = 0 := by
  simp [State.waitingPort, State.awaiting, hw, hf]

/-! ### The engine's turn comes -/

/-- The next turn is the host's, and it has an effect. -/
def State.HostTurn (s : State) : Prop :=
  (∃ tok, s.upcoming = .push tok ∧ s.inReady = true) ∨ ∃ image, s.upcoming = .reset image

/-- The next turn is the engine's, or a held push's, in which the engine steps. -/
def State.EngineTurn (s : State) : Prop :=
  s.upcoming = .engine ∨ ∃ tok, s.upcoming = .push tok ∧ s.inReady = false

/-- After finitely many turns of the host the engine's turn has come, or a reset was refused. -/
def State.EngineTurnComes (s : State) : Prop :=
  ∃ k : Nat, (∀ m u, m < k → Sys2Proof.core.run m s = .next u → State.HostTurn u) ∧
    (Sys2Proof.core.run k s = .refused .imageOutOfRange ∨
      ∃ u : State, Sys2Proof.core.run k s = .next u ∧ u.EngineTurn)

theorem run_succ_of_next {s u : State} (h : step s = .next u) (k : Nat) :
    Sys2Proof.core.run (k + 1) s = Sys2Proof.core.run k u := by
  have hcore : Sys2Proof.core.step s = .next u := h
  simp only [Host.Core.run, hcore]

theorem run_one_of_refused {s : State} {r : Refusal} (h : step s = .refused r) :
    Sys2Proof.core.run 1 s = .refused r := by
  have hcore : Sys2Proof.core.step s = .refused r := h
  simp only [Host.Core.run, hcore]

theorem State.EngineTurn.comes {s : State} (h : s.EngineTurn) : s.EngineTurnComes :=
  ⟨0, fun _ _ hm => absurd hm (Nat.not_lt_zero _), .inr ⟨s, rfl, h⟩⟩

theorem State.EngineTurnComes.of_host_step {s u : State} (hs : s.HostTurn) (h : step s = .next u)
    (hu : u.EngineTurnComes) : s.EngineTurnComes := by
  obtain ⟨k, hhost, hend⟩ := hu
  refine ⟨k + 1, fun m v hm hv => ?_, run_succ_of_next h k ▸ hend⟩
  cases m with
  | zero =>
    obtain rfl : s = v := Host.Outcome.next.inj hv
    exact hs
  | succ m => exact hhost m v (by omega) ((run_succ_of_next h m).symm.trans hv)

theorem State.engineTurnComes_of_refused {s : State} (hs : s.HostTurn) (h : step s = .refused .imageOutOfRange) :
    s.EngineTurnComes := by
  refine ⟨1, fun m v hm hv => ?_, .inl (run_one_of_refused h)⟩
  obtain rfl : m = 0 := by omega
  obtain rfl : s = v := Host.Outcome.next.inj hv
  exact hs

/-- A turn of the host leaves the turns after it, so the engine's comes when it comes from every state with those. -/
theorem State.engineTurnComes_of_taken {s : State}
    (h : ∀ u : State, u.schedule = s.taken.schedule → u.future = s.taken.future → u.EngineTurnComes) :
    s.EngineTurnComes := by
  cases hu : s.upcoming with
  | engine => exact State.EngineTurn.comes (.inl hu)
  | push tok =>
    cases hr : s.inReady with
    | true => exact .of_host_step (.inl ⟨tok, hu, hr⟩) (step_of_push hu hr) (h _ rfl rfl)
    | false => exact State.EngineTurn.comes (.inr ⟨tok, hu, hr⟩)
  | reset image =>
    obtain hi | hi := all_inRange_or s.cfg image
    · exact .of_host_step (.inr ⟨image, hu⟩) (step_of_reset hu hi) (h _ rfl rfl)
    · exact State.engineTurnComes_of_refused (.inr ⟨image, hu⟩) (step_of_bad_reset hu hi)

/-- The engine's turn comes when it is among the turns listed. -/
theorem State.engineTurnComes_of_mem (l : List Turn) :
    ∀ s : State, s.refill.schedule = l → .engine ∈ l → s.EngineTurnComes := by
  induction l with
  | nil => simp
  | cons x l ih =>
    intro s hs hmem
    have hx : s.upcoming = x := by simp [State.upcoming, hs]
    have hl : s.taken.schedule = l := by simp [State.taken, hs]
    obtain rfl | hmem := List.mem_cons.1 hmem
    · exact State.EngineTurn.comes (.inl hx)
    · obtain ⟨y, l', rfl⟩ := List.exists_cons_of_ne_nil (List.ne_nil_of_mem hmem)
      refine State.engineTurnComes_of_taken fun u hu _ => ih u ?_ hmem
      rw [State.refill_of_listed (hu.trans hl), hu, hl]

/-- The engine's turn comes after the turns listed: at once when the host is then quiet, and otherwise at the end of the
next period (10_state.md R31). -/
theorem State.engineTurnComes (s : State) : s.EngineTurnComes := by
  induction hl : s.schedule generalizing s with
  | nil =>
    cases hf : s.future with
    | quiet => exact State.EngineTurn.comes (.inl (State.upcoming_of_quiet hl hf).1)
    | free n => exact State.engineTurnComes_of_mem _ s rfl (by simp [State.refill_of_free hl hf])
  | cons x l ih =>
    refine State.engineTurnComes_of_taken fun u hu _ => ih u ?_
    rw [hu, (State.upcoming_of_listed hl).2, State.withSchedule_schedule]

end Sys2Proof.Machine

/-! ### The statements -/

/-- Settles O23: the engine that awaits input has no step, at its turn or while a push is held (41_io.md R118). -/
theorem awaitingEngineStaysSuspended : Obligations.AwaitingEngineStaysSuspended := by
  intro s h
  obtain ⟨htaken, htaken'⟩ := State.awaiting_taken_started h
  obtain ⟨hheld, hheld'⟩ := State.awaiting_refill_started h
  refine ⟨fun hu => (step_of_engine hu).trans htaken, fun t ht hend => ?_⟩
  obtain ⟨-, he⟩ | ⟨tok, hu, hr, -⟩ | ⟨tok, -, -, he⟩ | ⟨image, hu, -, -⟩ := step_cases ht
  · obtain rfl := Host.Outcome.next.inj (htaken.symm.trans he)
    simp [htaken'] at hend
  · exact .inl ⟨tok, hu, hr⟩
  · obtain rfl := Host.Outcome.next.inj (hheld.symm.trans he)
    simp [hheld'] at hend
  · exact .inr ⟨image, hu⟩

/-- Settles O27: the host pushes without a change to `Out`, and the engine changes it by an Output only
(41_io.md R112). -/
theorem onlyOutputEmits : Obligations.OnlyOutputEmits := by
  intro s t h hr
  obtain ⟨r, f, he⟩ | ⟨tok, rfl⟩ := step_of_no_reset h hr
  · exact (engineStep_out_cases he).imp_right
      fun ⟨_, v, ⟨c, a, hs, hf, hd, hv⟩, ho⟩ => ⟨c, a, v, hs, hf, hd, hv, ho⟩
  · exact .inl s.taken_out

/-- Settles O28: after the push the Input at pc has a token, so the engine's turn completes it (41_io.md R110, R118). -/
theorem pushedTokenEndsWait : Obligations.PushedTokenEndsWait := by
  intro s tok h hu hr hnext
  have hfinds := (s.awaiting_iff.1 h).1
  obtain ⟨hs, hq, -⟩ := s.inputFindsNoToken_iff.1 hfinds
  obtain ⟨d, ht, he⟩ := State.inputFindsNoToken_fed (u := (s.taken.taken.pushToken tok).started) (tok := tok)
    (rest := []) hfinds (by simp) (by simp) (by simp) (by simp [hq])
  have hsecond : step (s.taken.pushToken tok) = engineStep (s.taken.taken.pushToken tok).started := by
    rw [step_of_engine ((s.taken.upcoming_pushToken tok).trans hnext), State.taken_pushToken]
  refine ⟨_, _, d, step_of_push hu hr, hsecond.trans he, ht, by simp, ?_, rfl, by simp, by simp [hs], by simp, by simp,
    rfl, rfl, rfl⟩
  simpa using s.mem.sameOutside_set d (tokenCell s.cfg tok)

/-- Settles O36: the engine's own dispatch, and the three ways its turn comes (10_state.md R30, R31). -/
theorem stepRunsDecodedInstruction : Obligations.StepRunsDecodedInstruction := by
  intro s c i hs hf hd
  have dispatch {u : State} (hu : u.status = s.status) (hm : u.mem = s.mem) (hp : u.pc = s.pc) :
      engineStep u = exec i u := engineStep_of_decode (hu.trans hs) ((State.fetch_congr hm hp).trans hf) hd
  have hturn (hu : s.upcoming = .engine) : step s = exec i s.taken.started :=
    (step_of_engine hu).trans (dispatch (by simp) (by simp) (by simp))
  refine ⟨dispatch rfl rfl rfl, fun hl hq => ?_, hturn, fun tok hu hr => ?_⟩
  · obtain ⟨hu, htaken⟩ := State.upcoming_of_quiet hl hq
    have hstep := hturn hu
    rwa [htaken] at hstep
  · exact (step_of_held_push hu hr).trans (dispatch (by simp) (by simp) (by simp))

/-- Settles O40: the parameters over every turn, MEM_SIZE over the turns that load no image (10_state.md R20, R27). -/
theorem sizeAndParametersAreFixed : Obligations.SizeAndParametersAreFixed := fun _ _ h =>
  ⟨step_cfg h, step_size_mem h⟩

/-- Settles O41: the engine has no step in a terminal status, and a push joins the tail (60_exceptions.md R166). -/
theorem terminalStatusIsFinal : Obligations.TerminalStatusIsFinal := by
  intro s h hr
  have hs : s.status ≠ .running := s.finished_iff.1 h
  cases hu : s.upcoming with
  | engine =>
    refine ⟨s.taken.started, (step_of_engine hu).trans (engineStep_of_not_running (by simpa using hs)), ?_⟩
    exact ⟨by simp, by simp, by simp, by simp, [], by simp⟩
  | push tok =>
    cases hready : s.inReady with
    | true => exact ⟨_, step_of_push hu hready, by simp, by simp, by simp, by simp, [tok], by simp⟩
    | false =>
      refine ⟨s.refill.started, (step_of_held_push hu hready).trans (engineStep_of_not_running (by simpa using hs)), ?_⟩
      exact ⟨by simp, by simp, by simp, by simp, [], by simp⟩
  | reset image => exact absurd hu (hr image)

/-- Settles O44: the state at power-on, evaluated (70_reset_and_hazards.md R191). -/
theorem powerOnState : Obligations.PowerOnState :=
  ⟨rfl, rfl, rfl, rfl, rfl, rfl, rfl, rfl, rfl, engineStep_of_pc_outside rfl (by decide)⟩

/-- Settles O45: what a reset sets and what it leaves (70_reset_and_hazards.md R190, R191). -/
theorem resetStartsNewRun : Obligations.ResetStartsNewRun := by
  intro s image hu hi
  refine ⟨_, step_of_reset hu hi, rfl, rfl, rfl, by simp, rfl, fun a v ha => ?_, rfl, rfl, fun hw => ?_, fun hw => ?_,
    by simp, rfl, rfl, rfl⟩
  · simp [Memory.get_load, ha]
  · exact State.awaiting_of_fresh (by simpa using hw) rfl
  · refine ⟨(State.waitingPort_eq_one_iff _).symm, ?_⟩
    rw [State.waitingPort_iff]
    simp [hw]

/-- Settles O46: the queue that takes a token, and the full one (41_io.md R116). -/
theorem pushAppendsOrIsHeld : Obligations.PushAppendsOrIsHeld := by
  refine fun s tok hu => ⟨fun hroom => ?_, fun n hn hfull => ?_⟩
  · have hr : s.inReady = true := by
      obtain hd | ⟨n, hd, hlt⟩ := hroom
      · simp [State.inReady, hd]
      · simp [State.inReady, hd, hlt]
    rw [step_of_push hu hr, State.pushToken, State.taken_inQ]
  · have hr : s.inReady = false := by simpa [State.inReady, hn] using hfull
    refine ⟨step_of_held_push hu hr, fun t ht => ?_⟩
    rw [step_of_held_push hu hr] at ht
    obtain ⟨-, hlist, -⟩ := engineStep_sameSetting ht
    exact (State.upcoming_of_refill_schedule (by simp [hu]) hlist).trans hu

/-- Settles O47: every turn but the reset of a bad image answers a next state (70_reset_and_hazards.md R192). -/
theorem onlyBadImageIsRefused : Obligations.OnlyBadImageIsRefused := by
  intro s
  obtain ⟨t, ht⟩ | ⟨image, hu, hi, hr⟩ := step_answers s
  · refine ⟨⟨?_, ?_⟩, ?_, ?_⟩
    · simp [ht]
    · rintro ⟨image, hu, hi⟩
      simp [step_of_bad_reset hu hi] at ht
    · simp [ht]
    · simp [ht]
  · exact ⟨⟨fun _ => ⟨image, hu, hi⟩, fun _ => ⟨_, hr⟩⟩, by simp [hr, eq_comm], by simp [hr]⟩

/-- Settles O48: the ports case by case, the wait by its condition (10_state.md R26, 60_exceptions.md R160). -/
theorem statusPortCodes : Obligations.StatusPortCodes := by
  intro s
  have codes {x : Status} (hx : s.status = x) :
      s.statusPort = { s with status := x }.statusPort ∧ s.failKindPort = { s with status := x }.failKindPort := by
    subst hx
    exact ⟨rfl, rfl⟩
  refine ⟨codes, codes, codes, codes, codes, codes, codes, s.waitingPort_iff, fun hw => ?_, fun hw hf => ?_⟩
  · rw [State.waitingPort_iff]
    simp [hw]
  · exact (State.awaiting_of_fresh hw hf).2

/-- Settles O51: listed turns, a quiet host, and the next period of an unending run (10_state.md R31). -/
theorem turnsComeInOrder : Obligations.TurnsComeInOrder := by
  refine fun s => ⟨fun x rest h => State.upcoming_of_listed h, State.upcoming_of_quiet, fun n h hf => ?_⟩
  obtain ⟨x, rest, hx⟩ := List.exists_cons_of_ne_nil (show Config.laterTurns n ++ [.engine] ≠ [] by simp)
  exact ⟨x, rest, hx, State.upcoming_of_free h hf hx⟩

/-- Settles O52: by induction on the listed turns, whatever the states between them (10_state.md R31). -/
theorem engineTurnAlwaysComes : Obligations.EngineTurnAlwaysComes := State.engineTurnComes

end
